-- ==== Sys2Proof/Word.lean ====
section
/-! DEFINITION. The word types of the block (00_scope.md R8, R9). -/

namespace Sys2Proof

/-- One byte of the instruction buffer or of the heap; also an opcode field and a register field (R8). -/
abbrev Byte := BitVec 8

/-- The 32 bits of a general register (`XLEN`), of `rem` and of `pc` (R8). -/
abbrev Word := BitVec 32

/-- The 16-bit immediate of load (`IMM_WIDTH`, R8). -/
abbrev Imm16 := BitVec 16

/-- The index of a general register, `0 <= i < NREGS = 32` (R8, R20). -/
abbrev RegId := Fin 32

end Sys2Proof
end

