-- ==== Sys2Proof/Syntax.lean ====
section
/-! DEFINITION. Syntax: the operations, the instruction formats, the instructions as the engine decodes them, and the
structured instructions of the assembler. -/

namespace Sys2Proof

/-- The 20 operation identifiers of 30_encoding.md R60, in the order of its list. -/
inductive Op
  | load | add | sub | mul | div | halt | jmp | jmpf | jmpb
  | eq | neq | gt | lt | gtq | ltq | jeq | jneq | aloc
  | illegal | nop
  deriving DecidableEq, Repr

/-- The five instruction formats of 30_encoding.md R64. -/
inductive Format
  | n | r | rr | rrr | ri
  deriving DecidableEq, Repr

/-- One decoded instruction, one constructor per row of spec/opcode_table.json. A register field is a whole byte: the
decoder accepts every value, and execution checks it (30_encoding.md R66). -/
inductive Instr
  /-- 41_load.md R120: `d` the destination, `imm` the 16-bit immediate. -/
  | load (d : Byte) (imm : Imm16)
  /-- 42_arithmetic.md R130. -/
  | add (a b d : Byte)
  /-- 42_arithmetic.md R131. -/
  | sub (a b d : Byte)
  /-- 42_arithmetic.md R132. -/
  | mul (a b d : Byte)
  /-- 42_arithmetic.md R133. -/
  | div (a b d : Byte)
  /-- 45_control_heap.md R190. -/
  | halt
  /-- 43_jumps.md R150. -/
  | jmp (t : Byte)
  /-- 43_jumps.md R151. -/
  | jmpf (t : Byte)
  /-- 43_jumps.md R152. -/
  | jmpb (t : Byte)
  /-- 44_compare_branch.md R171. -/
  | eq (a b : Byte)
  /-- 44_compare_branch.md R172. -/
  | neq (a b : Byte)
  /-- 44_compare_branch.md R173. -/
  | gt (a b : Byte)
  /-- 44_compare_branch.md R174. -/
  | lt (a b : Byte)
  /-- 44_compare_branch.md R175. -/
  | gtq (a b : Byte)
  /-- 44_compare_branch.md R176. -/
  | ltq (a b : Byte)
  /-- 44_compare_branch.md R177. -/
  | jeq (t : Byte)
  /-- 44_compare_branch.md R178. -/
  | jneq (t : Byte)
  /-- 45_control_heap.md R193. -/
  | aloc (t : Byte)
  /-- 45_control_heap.md R192: exists as a byte only where `NOP_BYTE` is a value. -/
  | nop
  /-- 45_control_heap.md R191: any opcode byte outside the known set; it has no operands (log entry 13). -/
  | illegal
  deriving DecidableEq, Repr

/-- An operand of a structured instruction of the assembler (30_encoding.md R86). The last form is the encoder's
contract violation of R87: no source text produces it. -/
inductive Operand
  | reg (i : Byte)
  | int (v : Int)
  | opcode (op : Op)
  deriving DecidableEq, Repr

/-- A structured instruction as the assembler's parser yields it: an operation and its operands in declared order
(30_encoding.md R84 to R86). Nothing ties the operands to the operation's format (R85). -/
structure AsmInstr where
  op : Op
  operands : List Operand
  deriving DecidableEq, Repr

/-- A program container: structured instructions in order (30_encoding.md R88). -/
abbrev AsmProgram := List AsmInstr

end Sys2Proof
end

