-- ==== Sys2Proof/Config.lean ====
section
/-! DEFINITION. The parameters of the block (00_scope.md R8), as plain data. A state carries one configuration and no
step changes it, so a claim about every state is a claim about every value of every OPEN parameter. -/

namespace Sys2Proof

/-- `RESET_POLICY` (00_scope.md R8, 10_state.md R21, D6): what reset leaves in the registers, the flag and `rem`. -/
inductive ResetPolicy
  /-- Each is unwritten, and a read of an unwritten register or flag faults with `UnwrittenRead`. -/
  | unwritten
  /-- Each is written with 0 or false. -/
  | zero
  deriving DecidableEq, Repr

/-- `PARSE_MODE` (30_encoding.md R89, D22): how the assembler parses a whole program. -/
inductive ParseMode
  | formOneOnly
  | perLine
  deriving DecidableEq, Repr

/-- The named parameters of 00_scope.md R8 that are not fixed by the source. -/
structure Config where
  /-- `OPCODE_MAP` (30_encoding.md R61): the operations of the bytes 0x00 to 0x11, in order. -/
  opcodeMap : Vector Op 18
  /-- `NOP_BYTE` (30_encoding.md R61, D2): the byte of nop, if there is one. -/
  nopByte : Option Byte
  /-- `ILLEGAL_ENCODE_BYTE` (30_encoding.md R63, D3): the byte the assembler emits for the illegal operation. -/
  illegalEncodeByte : Byte
  /-- `MAX_PROGRAM_BYTES` (20_memory.md R41, D11): the largest length of the instruction buffer. -/
  maxProgramBytes : Nat
  /-- `HEAP_MAX` (10_state.md R28, D15): the largest length of the heap. -/
  heapMax : Nat
  /-- `RESET_POLICY`. -/
  resetPolicy : ResetPolicy
  /-- `PARSE_MODE`. -/
  parseMode : ParseMode
  deriving DecidableEq, Repr

end Sys2Proof
end

