-- ==== Sys2Proof/Machine/Reference.lean ====
section
/-! DEFINITION. The reference configuration of 00_scope.md R8, and the configuration of `State.reset`. -/

namespace Sys2Proof

/-- The default `OPCODE_MAP`: the bytes 0x00 to 0x11 in the order of the table of 30_encoding.md R61 (D1). -/
def defaultOpcodeMap : Vector Op 18 :=
  #v[.load, .add, .sub, .mul, .div, .halt, .jmp, .jmpf, .jmpb,
     .eq, .neq, .gt, .lt, .gtq, .ltq, .jeq, .jneq, .aloc]

/-- The reference configuration: the default column of 00_scope.md R8, with the two sizes its test vectors use. -/
def Config.reference : Config where
  opcodeMap := defaultOpcodeMap
  nopByte := none
  illegalEncodeByte := 0xFF
  maxProgramBytes := 65535
  heapMax := 65535
  resetPolicy := .unwritten
  parseMode := .perLine

/-- The configuration of `State.reset`: the reference configuration under the `Zero` reset policy, the one of the two
policies of D6 under which every register holds a value after reset. DESIGN CHOICE, unsafe: log entry 1. -/
def Config.boot : Config :=
  { Config.reference with resetPolicy := .zero }

end Sys2Proof
end

