-- ==== Sys2Proof/WellFormed.lean ====
section
/-! DEFINITION. What is well formed: a configuration whose parameters meet the bounds of 00_scope.md R8, an instruction
that has an encoding under a configuration, and a structured instruction that the encoder accepts. -/

namespace Sys2Proof

/-- The opcode map gives each of the 18 operations from LOAD to ALOC exactly one of the bytes 0x00 to 0x11
(30_encoding.md R61: "a unique byte value"). -/
def Config.opcodeMapOk (c : Config) : Bool :=
  decide c.opcodeMap.toList.Nodup && !c.opcodeMap.toList.contains .nop && !c.opcodeMap.toList.contains .illegal

/-- `NOP_BYTE` is none or one byte value in 18..255 (00_scope.md R8). -/
def Config.nopByteOk (c : Config) : Bool :=
  match c.nopByte with
  | none => true
  | some b => decide (18 ≤ b.toNat)

/-- `ILLEGAL_ENCODE_BYTE` is not in 0..17 and is not `NOP_BYTE` (00_scope.md R8). -/
def Config.illegalEncodeByteOk (c : Config) : Bool :=
  decide (18 ≤ c.illegalEncodeByte.toNat) && decide (c.nopByte ≠ some c.illegalEncodeByte)

/-- `1 <= MAX_PROGRAM_BYTES <= 2^31 - 1` (00_scope.md R8). -/
def Config.maxProgramBytesOk (c : Config) : Bool :=
  decide (1 ≤ c.maxProgramBytes) && decide (c.maxProgramBytes ≤ 2 ^ 31 - 1)

/-- A configuration that 00_scope.md R8 allows. -/
def Config.wf (c : Config) : Bool :=
  c.opcodeMapOk && c.nopByteOk && c.illegalEncodeByteOk && c.maxProgramBytesOk

/-- An instruction that has an encoding under the configuration: every one but nop, which has a byte only where
`NOP_BYTE` is a value (30_encoding.md R63). Register fields of 32 and more are encodable; they fault when executed
(R66). -/
def Instr.wf (c : Config) : Instr → Bool
  | .load _ _ => true
  | .add _ _ _ => true
  | .sub _ _ _ => true
  | .mul _ _ _ => true
  | .div _ _ _ => true
  | .halt => true
  | .jmp _ => true
  | .jmpf _ => true
  | .jmpb _ => true
  | .eq _ _ => true
  | .neq _ _ => true
  | .gt _ _ => true
  | .lt _ _ => true
  | .gtq _ _ => true
  | .ltq _ _ => true
  | .jeq _ => true
  | .jneq _ => true
  | .aloc _ => true
  | .nop => c.nopByte.isSome
  | .illegal => true

/-- An operand that the encoder accepts: a register, or an integer in the assembler's literal range -32768..32767
(30_encoding.md R82), never an opcode token (R87). -/
def Operand.wf : Operand → Bool
  | .reg _ => true
  | .int v => decide (-32768 ≤ v) && decide (v ≤ 32767)
  | .opcode _ => false

/-- A structured instruction whose operation has a byte under the configuration and whose operands the encoder accepts
(30_encoding.md R86, R87). -/
def AsmInstr.wf (c : Config) (i : AsmInstr) : Bool :=
  (decide (i.op ≠ .nop) || c.nopByte.isSome) && i.operands.all Operand.wf

end Sys2Proof
end

