-- ==== Sys2Proof/Decode.lean ====
section
/-! DEFINITION. The decoder, total on any bytes and rejecting by name, and after it the encoder, both written from the
opcode map and the formats of 30_encoding.md R61 to R67. -/

namespace Sys2Proof

/-! ### Operations, formats and lengths -/

/-- The format of each operation (30_encoding.md R61, R64). -/
def Op.format : Op → Format
  | .load => .ri
  | .add => .rrr
  | .sub => .rrr
  | .mul => .rrr
  | .div => .rrr
  | .halt => .n
  | .jmp => .r
  | .jmpf => .r
  | .jmpb => .r
  | .eq => .rr
  | .neq => .rr
  | .gt => .rr
  | .lt => .rr
  | .gtq => .rr
  | .ltq => .rr
  | .jeq => .r
  | .jneq => .r
  | .aloc => .r
  | .illegal => .n
  | .nop => .n

/-- The length in bytes of an instruction of each format, its opcode byte included (30_encoding.md R64). -/
def Format.length : Format → Nat
  | .n => 1
  | .r => 2
  | .rr => 3
  | .rrr => 4
  | .ri => 4

/-- `length(op)` of 30_encoding.md R65. -/
def Op.length (op : Op) : Nat := op.format.length

/-- The operation of a decoded instruction. -/
def Instr.op : Instr → Op
  | .load _ _ => .load
  | .add _ _ _ => .add
  | .sub _ _ _ => .sub
  | .mul _ _ _ => .mul
  | .div _ _ _ => .div
  | .halt => .halt
  | .jmp _ => .jmp
  | .jmpf _ => .jmpf
  | .jmpb _ => .jmpb
  | .eq _ _ => .eq
  | .neq _ _ => .neq
  | .gt _ _ => .gt
  | .lt _ _ => .lt
  | .gtq _ _ => .gtq
  | .ltq _ _ => .ltq
  | .jeq _ => .jeq
  | .jneq _ => .jneq
  | .aloc _ => .aloc
  | .nop => .nop
  | .illegal => .illegal

/-- The register fields of an instruction in byte order: `d` for LOAD, `a`, `b`, `d` for RRR, `a`, `b` for RR, `t` for
R (40_step.md R103, check 2). -/
def Instr.regFields : Instr → List Byte
  | .load d _ => [d]
  | .add a b d => [a, b, d]
  | .sub a b d => [a, b, d]
  | .mul a b d => [a, b, d]
  | .div a b d => [a, b, d]
  | .halt => []
  | .jmp t => [t]
  | .jmpf t => [t]
  | .jmpb t => [t]
  | .eq a b => [a, b]
  | .neq a b => [a, b]
  | .gt a b => [a, b]
  | .lt a b => [a, b]
  | .gtq a b => [a, b]
  | .ltq a b => [a, b]
  | .jeq t => [t]
  | .jneq t => [t]
  | .aloc t => [t]
  | .nop => []
  | .illegal => []

/-- The register fields whose registers the instruction reads, in byte order (10_state.md R22). -/
def Instr.readFields : Instr → List Byte
  | .load _ _ => []
  | .add a b _ => [a, b]
  | .sub a b _ => [a, b]
  | .mul a b _ => [a, b]
  | .div a b _ => [a, b]
  | .halt => []
  | .jmp t => [t]
  | .jmpf t => [t]
  | .jmpb t => [t]
  | .eq a b => [a, b]
  | .neq a b => [a, b]
  | .gt a b => [a, b]
  | .lt a b => [a, b]
  | .gtq a b => [a, b]
  | .ltq a b => [a, b]
  | .jeq t => [t]
  | .jneq t => [t]
  | .aloc t => [t]
  | .nop => []
  | .illegal => []

/-- The register field whose register the instruction writes, if it writes one (10_state.md R22). -/
def Instr.destField : Instr → Option Byte
  | .load d _ => some d
  | .add _ _ d => some d
  | .sub _ _ d => some d
  | .mul _ _ d => some d
  | .div _ _ d => some d
  | .halt => none
  | .jmp _ => none
  | .jmpf _ => none
  | .jmpb _ => none
  | .eq _ _ => none
  | .neq _ _ => none
  | .gt _ _ => none
  | .lt _ _ => none
  | .gtq _ _ => none
  | .ltq _ _ => none
  | .jeq _ => none
  | .jneq _ => none
  | .aloc _ => none
  | .nop => none
  | .illegal => none

/-- The byte of a register field that names register `i` (30_encoding.md R66: the field is the index, with no scaling
and no offset). -/
def regByte (i : RegId) : Byte := BitVec.ofNat 8 i.val

/-! ### The opcode byte -/

/-- `fromByte` of 30_encoding.md R62: total over the 256 bytes. -/
def fromByte (c : Config) (b : Byte) : Op :=
  if h : b.toNat < 18 then c.opcodeMap[b.toNat]
  else if c.nopByte = some b then .nop
  else .illegal

/-- `toByte` of 30_encoding.md R63: the operation's place in the opcode map, `NOP_BYTE` for NOP (undefined where it is
none), and undefined on ILLEGAL. -/
def toByte (c : Config) (op : Op) : Option Byte :=
  if op = .nop then c.nopByte
  else if op = .illegal then none
  else (c.opcodeMap.toList.findIdx? (fun o => decide (o = op))).map (BitVec.ofNat 8)

/-- The byte the encoder emits for an operation (30_encoding.md R86): `ILLEGAL_ENCODE_BYTE` for ILLEGAL, else
`toByte`; refused for NOP where `NOP_BYTE` is none. -/
def encodeOp (c : Config) (op : Op) : Option Byte :=
  if op = .illegal then some c.illegalEncodeByte else toByte c op

/-! ### The 16-bit immediate -/

/-- `imm16 = byte2 ++ byte3`: the first byte is the more significant (20_memory.md R43, 30_encoding.md R67). -/
def immOfBytes (hi lo : Byte) : Imm16 := hi ++ lo

/-- `imm[15:8]` (30_encoding.md R64). -/
def immHigh (imm : Imm16) : Byte := imm.extractLsb' 8 8

/-- `imm[7:0]` (30_encoding.md R64). -/
def immLow (imm : Imm16) : Byte := imm.extractLsb' 0 8

/-! ### The decoder -/

/-- Why a byte sequence is not the start of an instruction. -/
inductive DecodeError
  /-- There is no opcode byte. -/
  | noOpcode
  /-- The operand bytes that the opcode byte asks for run past the end (40_step.md R102). -/
  | truncated
  deriving DecidableEq, Repr

/-- Operand bytes of format R: `t`. -/
def takeR (mk : Byte → Instr) : List Byte → Option (Instr × List Byte)
  | t :: rest => some (mk t, rest)
  | [] => none

/-- Operand bytes of format RR: `a`, `b`. -/
def takeRR (mk : Byte → Byte → Instr) : List Byte → Option (Instr × List Byte)
  | a :: b :: rest => some (mk a b, rest)
  | _ => none

/-- Operand bytes of format RRR: `a`, `b`, `d`. -/
def takeRRR (mk : Byte → Byte → Byte → Instr) : List Byte → Option (Instr × List Byte)
  | a :: b :: d :: rest => some (mk a b d, rest)
  | _ => none

/-- Operand bytes of format RI: `d`, then the immediate, high byte first. -/
def takeRI (mk : Byte → Imm16 → Instr) : List Byte → Option (Instr × List Byte)
  | d :: hi :: lo :: rest => some (mk d (immOfBytes hi lo), rest)
  | _ => none

/-- The instruction of an operation whose opcode byte has been consumed, read from the bytes after it, with the bytes
left over (30_encoding.md R64). -/
def decodeOperands (op : Op) (bs : List Byte) : Option (Instr × List Byte) :=
  match op with
  | .load => takeRI .load bs
  | .add => takeRRR .add bs
  | .sub => takeRRR .sub bs
  | .mul => takeRRR .mul bs
  | .div => takeRRR .div bs
  | .halt => some (.halt, bs)
  | .jmp => takeR .jmp bs
  | .jmpf => takeR .jmpf bs
  | .jmpb => takeR .jmpb bs
  | .eq => takeRR .eq bs
  | .neq => takeRR .neq bs
  | .gt => takeRR .gt bs
  | .lt => takeRR .lt bs
  | .gtq => takeRR .gtq bs
  | .ltq => takeRR .ltq bs
  | .jeq => takeR .jeq bs
  | .jneq => takeR .jneq bs
  | .aloc => takeR .aloc bs
  | .nop => some (.nop, bs)
  | .illegal => some (.illegal, bs)

/-- The decoder: the first instruction of a byte sequence and the bytes after it, total on any bytes. The opcode byte
alone fixes the operation, the format and the length (30_encoding.md R65, R70). -/
def decode (c : Config) : List Byte → Except DecodeError (Instr × List Byte)
  | [] => .error .noOpcode
  | ob :: bs =>
    match decodeOperands (fromByte c ob) bs with
    | some r => .ok r
    | none => .error .truncated

/-! ### The encoder -/

/-- The operand bytes of an instruction in wire order (30_encoding.md R64). -/
def operandBytes : Instr → List Byte
  | .load d imm => [d, immHigh imm, immLow imm]
  | .add a b d => [a, b, d]
  | .sub a b d => [a, b, d]
  | .mul a b d => [a, b, d]
  | .div a b d => [a, b, d]
  | .halt => []
  | .jmp t => [t]
  | .jmpf t => [t]
  | .jmpb t => [t]
  | .eq a b => [a, b]
  | .neq a b => [a, b]
  | .gt a b => [a, b]
  | .lt a b => [a, b]
  | .gtq a b => [a, b]
  | .ltq a b => [a, b]
  | .jeq t => [t]
  | .jneq t => [t]
  | .aloc t => [t]
  | .nop => []
  | .illegal => []

/-- The bytes of an instruction: its opcode byte, then its operand bytes. Refused only for nop where `NOP_BYTE` is none
(30_encoding.md R86), and where a malformed configuration gives the operation no byte. -/
def encode (c : Config) (i : Instr) : Option (List Byte) :=
  (encodeOp c i.op).map (fun ob => ob :: operandBytes i)

/-! ### Words numbered as spec/opcode_table.json numbers them -/

/-- Byte `j` of a pattern of `k` bytes read as one big-endian number: byte 0 is the most significant, "byte 0 is bits
`[8L-1 : 8L-8]`" (30_encoding.md R64). -/
def patternByte (k w j : Nat) : Byte := BitVec.ofNat 8 (w / 2 ^ (8 * (k - 1 - j)))

/-- The bytes of a table word of `nbits` bits in buffer order, followed by zero bytes up to the longest instruction's
4 bytes (log entry 11). -/
def tableWordBytes (nbits w : Nat) : List Byte :=
  (List.range (nbits / 8)).map (patternByte (nbits / 8) w) ++ List.replicate (4 - nbits / 8) 0

/-- The instruction the decoder reads from a table word under the configuration of `State.reset`. -/
def decodeTableWord (nbits w : Nat) : Option Instr :=
  match decode Config.boot (tableWordBytes nbits w) with
  | .ok (i, _) => some i
  | .error _ => none

end Sys2Proof
end

