-- ==== Sys2Proof/Machine/State.lean ====
section
/-! DEFINITION. The state of the block as plain data (10_state.md R20 to R31), the reasons a step can stop, and the
state after reset (70_reset_and_hazards.md R240). -/

namespace Sys2Proof.Machine

/-- The fault causes of 60_exceptions.md R212. In this model a fault is TAKEN: the step answers a next state whose fault
record holds the cause (R211), and no step answers `Host.Outcome.fault` (log entry 6). Each constructor below is
therefore a recorded cause, and safe: it adds no value the spec does not give. -/
inductive Fault
  /-- Raised by any instruction of 2 or more bytes whose operand bytes run past the end of the buffer (R102). Safe. -/
  | truncated
  /-- Raised by every instruction with a register field, when a field is 32 or more (R20). Safe. -/
  | badRegister
  /-- Raised by every instruction that reads a register or the flag, when it is unwritten and `RESET_POLICY` is
  `Unwritten` (R21, R26). Safe. -/
  | unwrittenRead
  /-- Raised by div for a zero divisor (R133). Safe. -/
  | divideByZero
  /-- Raised by div for -2^31 / -1 (R133). Safe. -/
  | divideOverflow
  /-- Raised by jmpf and jmpb for a negative target (R151, R152). Safe. -/
  | pcUnderflow
  /-- Raised by aloc for a negative count (R193). Safe. -/
  | allocNegative
  /-- Raised by aloc when the heap would pass `HEAP_MAX` (R193). Safe. -/
  | heapExhausted
  deriving DecidableEq, Repr

/-- The reasons a step can have no meaning. -/
inductive Refusal
  /-- Raised by an arm of `exec` that has no meaning yet, under the instruction's mnemonic. Safe. No arm does. -/
  | notModelled (mnemonic : String)
  deriving DecidableEq, Repr

/-- The halt reasons of 60_exceptions.md R220. -/
inductive HaltReason
  | endOfBuffer
  | haltInstr
  | illegalInstr
  deriving DecidableEq, Repr

/-- The outcome of a step (40_step.md R100). -/
inductive StepOutcome
  | continues
  | halted (reason : HaltReason)
  | faulted (cause : Fault)
  deriving DecidableEq, Repr

/-- A cell that is either unwritten or holds a value (10_state.md R21): the value and the mark. The value behind an
unwritten mark is the model's own and nothing reads it (log entry 2). -/
structure Cell (α : Type) where
  value : α
  written : Bool
  deriving DecidableEq, Repr

/-- A byte store of a given length: the instruction buffer (20_memory.md R40) or the heap (R44). `cells` lists, at
strictly rising addresses below `size`, the bytes that are not 0; an unlisted address below `size` reads as 0, and an
address at or above `size` is outside the store (log entry 10). -/
structure Memory where
  size : Nat
  cells : List Host.Cell
  deriving DecidableEq, Repr

/-- The fault record's triple (10_state.md R30). -/
structure FaultRecord where
  cause : Fault
  fpc : Word
  opbyte : Byte
  deriving DecidableEq, Repr

/-- The whole state of the block (10_state.md R20 to R31), with the configuration it runs under (log entry 3) and the
outcome of its last step (log entry 5). -/
structure State where
  /-- The parameters of 00_scope.md R8; no step changes them. -/
  cfg : Config
  /-- The general registers r_0 to r_31 (R20, R21). -/
  regs : Vector (Cell Word) 32
  /-- The program counter, an unsigned byte offset into the buffer (R23). -/
  pc : Word
  /-- The comparison flag (R26). -/
  flag : Cell Bool
  /-- The remainder register, unsigned (R27). -/
  rem : Cell Word
  /-- The heap (R28). -/
  heap : Memory
  /-- The instruction buffer (R29). -/
  buffer : Memory
  /-- The fault record (R30). -/
  fault : Option FaultRecord
  /-- What the last step returned (R100). The model's own: no step reads it. -/
  outcome : StepOutcome
  deriving DecidableEq, Repr

/-- A cell as reset leaves it (R240): unwritten under `Unwritten`, written with the zero of its type under `Zero`. -/
def resetCell {α : Type} (p : ResetPolicy) (zero : α) : Cell α :=
  { value := zero, written := decide (p = .zero) }

/-- The reset state of 70_reset_and_hazards.md R240 under a configuration. -/
def State.resetWith (c : Config) : State where
  cfg := c
  regs := Vector.replicate 32 (resetCell c.resetPolicy 0#32)
  pc := 0#32
  flag := resetCell c.resetPolicy false
  rem := resetCell c.resetPolicy 0#32
  heap := { size := 0, cells := [] }
  buffer := { size := 0, cells := [] }
  fault := none
  outcome := .continues

/-- The machine right after reset, under the configuration `Config.boot` (log entries 1 and 4). -/
def State.reset : State := State.resetWith Config.boot

end Sys2Proof.Machine
end

