-- ==== Sys2Proof/Machine/Ops.lean ====
section
/-! DEFINITION. The named operations over the byte stores, the registers and the fault record. -/

namespace Sys2Proof.Machine

/-! ### Byte stores (20_memory.md) -/

/-- The listed byte at an address, or 0 where none is listed. -/
def lookupCell : List Host.Cell → Nat → Byte
  | [], _ => 0#8
  | (k, v) :: rest, a => if k = a then v else lookupCell rest a

/-- `MemRead(a, 1)` (R40): the byte at offset `a`, none at or beyond the length. -/
def Memory.read (m : Memory) (a : Nat) : Option Byte :=
  if a < m.size then some (lookupCell m.cells a) else none

/-- One byte appended at the end. -/
def Memory.push (m : Memory) (b : Byte) : Memory where
  size := m.size + 1
  cells := if b = 0#8 then m.cells else m.cells ++ [(m.size, b)]

/-- Bytes appended at the end, in order; no existing byte changes (R50). -/
def Memory.append (m : Memory) : List Byte → Memory
  | [] => m
  | b :: bs => (m.push b).append bs

/-- `HeapGrow(n)` (R44): `n` bytes of value 0 appended at the end, the earlier bytes unchanged. -/
def Memory.growZero (m : Memory) (n : Nat) : Memory where
  size := m.size + n
  cells := m.cells

/-- The cells with the byte at one address replaced, in canonical form. -/
def setCell : List Host.Cell → Nat → Byte → List Host.Cell
  | [], a, b => if b = 0#8 then [] else [(a, b)]
  | (k, v) :: rest, a, b =>
    if a < k then (if b = 0#8 then (k, v) :: rest else (a, b) :: (k, v) :: rest)
    else if a = k then (if b = 0#8 then rest else (a, b) :: rest)
    else (k, v) :: setCell rest a b

/-- One byte placed at an address, the store lengthened with zero bytes to hold it. No operation of the block: it serves
`State.withFetchWord` only (log entry 12). -/
def Memory.poke (m : Memory) (a : Nat) (b : Byte) : Memory where
  size := max m.size (a + 1)
  cells := setCell m.cells a b

/-- Bytes placed from an address on; serves `State.withFetchWord` only. -/
def Memory.pokeAll (m : Memory) (a : Nat) : List Byte → Memory
  | [] => m
  | b :: bs => (m.poke a b).pokeAll (a + 1) bs

/-- Up to `n` bytes from offset `a` on, in increasing offset order (R43), stopping at the end of the store. -/
def Memory.window (m : Memory) (a : Nat) : Nat → List Byte
  | 0 => []
  | n + 1 =>
    match m.read a with
    | none => []
    | some b => b :: m.window (a + 1) n

/-- The cells stand at strictly rising addresses from `lo` on, below `size`, and none is 0. -/
def cellsOk (size : Nat) : Nat → List Host.Cell → Bool
  | _, [] => true
  | lo, (k, v) :: rest => decide (lo ≤ k) && decide (k < size) && decide (v ≠ 0#8) && cellsOk size (k + 1) rest

/-- The canonical form of a byte store: two stores in it that read alike everywhere are equal. -/
def Memory.wf (m : Memory) : Bool := cellsOk m.size 0 m.cells

/-! ### Registers, flag, remainder, pc (10_state.md) -/

/-- The cell of register `i`. -/
def State.reg (s : State) (i : RegId) : Cell Word := s.regs[i.val]

/-- A cell that holds a value. -/
def Cell.holding {α : Type} (v : α) : Cell α := { value := v, written := true }

/-- `x[i] <- v` (R10); the write makes the register written (R21). -/
def State.writeReg (s : State) (i : RegId) (v : Word) : State :=
  { s with regs := s.regs.set i.val (Cell.holding v) }

/-- `flag <- v`; the write makes the flag written (R26). -/
def State.writeFlag (s : State) (v : Bool) : State :=
  { s with flag := Cell.holding v }

/-- `rem <- v`; the write makes the remainder register written (R27). -/
def State.writeRem (s : State) (v : Word) : State :=
  { s with rem := Cell.holding v }

/-- `pc <- t` (R10). -/
def State.setPc (s : State) (t : Word) : State :=
  { s with pc := t }

/-- `pc <- p + n` (40_step.md R104). It never wraps in a step (10_state.md R25; log entry 9). -/
def State.advance (s : State) (n : Nat) : State :=
  s.setPc (s.pc + BitVec.ofNat 32 n)

/-- `HeapGrow(n)` on the heap (R44). -/
def State.growHeap (s : State) (n : Nat) : State :=
  { s with heap := s.heap.growZero n }

/-- The step's outcome, as the last thing a step sets (40_step.md R100). -/
def State.withOutcome (s : State) (o : StepOutcome) : State :=
  { s with outcome := o }

/-! ### Taking a fault (60_exceptions.md R211) -/

/-- `ob = MemRead(p, 1)` of 40_step.md R105: the opcode byte at pc. A step fetches it only where there is one; elsewhere
this is 0 (log entry 8). -/
def State.opcodeByte (s : State) : Byte :=
  (s.buffer.read s.pc.toNat).getD 0#8

/-- Fault entry (R211): `fault <- (F, p, ob)` and nothing else; the step returns `Faulted(F)`. There is no return from
a fault (R215): only reset clears the record. -/
def State.raise (s : State) (cause : Fault) : State :=
  { s with
    fault := some { cause := cause, fpc := s.pc, opbyte := s.opcodeByte }
    outcome := .faulted cause }

/-- The end of an instruction (40_step.md R103, check 5): either every check passed and all its writes happen together,
or the first failing check's fault is taken from the state before it and no write happens. -/
def State.settle (s : State) (r : Except Fault State) (o : StepOutcome) :
    Host.Outcome State Fault Refusal :=
  match r with
  | .ok t => .next (t.withOutcome o)
  | .error cause => .next (s.raise cause)

/-! ### Codes -/

/-- The code of a fault cause (R212). -/
def Fault.code : Fault → Nat
  | .truncated => 1
  | .badRegister => 2
  | .unwrittenRead => 3
  | .divideByZero => 4
  | .divideOverflow => 5
  | .pcUnderflow => 6
  | .allocNegative => 7
  | .heapExhausted => 8

/-- The code of a halt reason (R220). -/
def HaltReason.code : HaltReason → Nat
  | .endOfBuffer => 0
  | .haltInstr => 1
  | .illegalInstr => 2

end Sys2Proof.Machine
end

