-- ==== Sys2Proof/Machine/Operands.lean ====
section
/-! DEFINITION. Operand checks and operand forms: register fields first, in byte order, then unwritten reads, in byte
order with the flag last (40_step.md R103, checks 2 and 3). -/

namespace Sys2Proof.Machine

/-! ### Integers of 32 bits (00_scope.md R9) -/

/-- `s32(b)`: the pattern read as two's complement. -/
abbrev s32 (b : Word) : Int := b.toInt

/-- `u32(v)`: the pattern of an integer modulo 2^32. -/
abbrev u32 (v : Int) : Word := BitVec.ofInt 32 v

/-- The register pattern of `wrap32(v)`: the integer reduced modulo 2^32, to be read as two's complement. -/
abbrev wrap32 (v : Int) : Word := u32 v

/-! ### Cells -/

/-- A cell can be read: it is written, or the policy is `Zero`, under which nothing is unwritten (10_state.md R21). -/
def Cell.readable {α : Type} (c : Cell α) (p : ResetPolicy) : Bool :=
  decide (p = .zero) || c.written

/-- A read of a cell: its value, or `UnwrittenRead` (10_state.md R21, R26). -/
def Cell.read {α : Type} (c : Cell α) (p : ResetPolicy) : Except Fault α :=
  if c.readable p then .ok c.value else .error .unwrittenRead

/-- A cell as the host's snapshot shows it: its value, or unwritten (60_exceptions.md R230, D32). -/
def Cell.shown {α : Type} (c : Cell α) (p : ResetPolicy) : Option α :=
  if c.readable p then some c.value else none

/-! ### Register fields and reads -/

/-- The register a field byte selects; `BadRegister` for 32 and more (10_state.md R20, 30_encoding.md R66). -/
def regIndex (field : Byte) : Except Fault RegId :=
  if h : field.toNat < 32 then .ok ⟨field.toNat, h⟩ else .error .badRegister

/-- `x[i]` read as an instruction reads it. -/
def State.readReg (s : State) (i : RegId) : Except Fault Word :=
  (s.reg i).read s.cfg.resetPolicy

/-- The flag read as jeq and jneq read it. -/
def State.readFlag (s : State) : Except Fault Bool :=
  s.flag.read s.cfg.resetPolicy

/-- Register `i` can be read without `UnwrittenRead`. -/
abbrev State.RegReadable (s : State) (i : RegId) : Prop :=
  (s.reg i).readable s.cfg.resetPolicy = true

/-- The flag can be read without `UnwrittenRead`. -/
abbrev State.FlagReadable (s : State) : Prop :=
  s.flag.readable s.cfg.resetPolicy = true

/-! ### Operand forms -/

/-- Format RRR: the fields `a`, `b`, `d` checked in byte order, then `x[a]` and `x[b]` read. -/
def State.operandsRRR (s : State) (a b d : Byte) : Except Fault (Word × Word × RegId) := do
  let ia ← regIndex a
  let ib ← regIndex b
  let id ← regIndex d
  let x ← s.readReg ia
  let y ← s.readReg ib
  return (x, y, id)

/-- Format RR: the fields `a`, `b` checked in byte order, then `x[a]` and `x[b]` read. -/
def State.operandsRR (s : State) (a b : Byte) : Except Fault (Word × Word) := do
  let ia ← regIndex a
  let ib ← regIndex b
  let x ← s.readReg ia
  let y ← s.readReg ib
  return (x, y)

/-- Format R: the field `t` checked, then `x[t]` read. -/
def State.operandR (s : State) (t : Byte) : Except Fault Word := do
  let it ← regIndex t
  s.readReg it

/-- Format R of jeq and jneq: the field `t` checked, then `x[t]` read, then the flag, taken or not (44_compare_branch.md
R177, D26). -/
def State.operandRFlag (s : State) (t : Byte) : Except Fault (Word × Bool) := do
  let x ← s.operandR t
  let f ← s.readFlag
  return (x, f)

end Sys2Proof.Machine
end

