-- ==== Sys2Proof/Machine/Arithmetic.lean ====
section
/-! DEFINITION. The ALU (42_arithmetic.md): exact integer results, wrapped to 32 bits (R134), and the division law
(R135). -/

namespace Sys2Proof.Machine

/-- `wrap32(x[a] + x[b])` (R130). -/
def aluAdd (x y : Word) : Word := wrap32 (s32 x + s32 y)

/-- `wrap32(x[a] - x[b])` (R131). -/
def aluSub (x y : Word) : Word := wrap32 (s32 x - s32 y)

/-- `wrap32(x[a] * x[b])` (R132). -/
def aluMul (x y : Word) : Word := wrap32 (s32 x * s32 y)

/-- The quotient and the remainder of R133 and R135: `q = trunc(n / m)` (D10; log entry 19), `r = n - q * m`
stored as `u32(r)`; a zero
divisor, then -2^31 / -1, faults. -/
def aluDiv (x y : Word) : Except Fault (Word × Word) :=
  if s32 y = 0 then .error .divideByZero
  else if s32 x = -2 ^ 31 ∧ s32 y = -1 then .error .divideOverflow
  else .ok (u32 ((s32 x).tdiv (s32 y)), u32 (s32 x - (s32 x).tdiv (s32 y) * s32 y))

/-- The frame of add, sub and mul: both sources are read before the write, so `d` may equal `a` or `b`. -/
def State.alu (s : State) (a b d : Byte) (f : Word → Word → Word) : Host.Outcome State Fault Refusal :=
  s.settle (do
    let (x, y, id) ← s.operandsRRR a b d
    return (s.writeReg id (f x y)).advance 4) .continues

/-- ADD (R130). -/
def execAdd (a b d : Byte) (s : State) : Host.Outcome State Fault Refusal := s.alu a b d aluAdd

/-- SUB (R131): the first source minus the second. -/
def execSub (a b d : Byte) (s : State) : Host.Outcome State Fault Refusal := s.alu a b d aluSub

/-- MUL (R132). -/
def execMul (a b d : Byte) (s : State) : Host.Outcome State Fault Refusal := s.alu a b d aluMul

/-- DIV (R133): the quotient to `x[d]`, the remainder to `rem`; a fault writes neither. -/
def execDiv (a b d : Byte) (s : State) : Host.Outcome State Fault Refusal :=
  s.settle (do
    let (x, y, id) ← s.operandsRRR a b d
    let (q, r) ← aluDiv x y
    return ((s.writeReg id q).writeRem r).advance 4) .continues

end Sys2Proof.Machine
end

