-- ==== Sys2Proof/Machine/Flags.lean ====
section
/-! DEFINITION. The relations that the comparisons put into the flag: signed comparisons (44_compare_branch.md R170 to
R176). No other instruction writes the flag (10_state.md R26). -/

namespace Sys2Proof.Machine

/-- `REL(u, v) = (u = v)` (R171). -/
def relEq (x y : Word) : Bool := decide (s32 x = s32 y)

/-- `REL(u, v) = (u != v)` (R172). -/
def relNeq (x y : Word) : Bool := decide (s32 x ≠ s32 y)

/-- `REL(u, v) = (u > v)`, signed (R173). -/
def relGt (x y : Word) : Bool := decide (s32 x > s32 y)

/-- `REL(u, v) = (u < v)`, signed (R174). -/
def relLt (x y : Word) : Bool := decide (s32 x < s32 y)

/-- `REL(u, v) = (u >= v)`, signed (R175). -/
def relGtq (x y : Word) : Bool := decide (s32 x ≥ s32 y)

/-- `REL(u, v) = (u <= v)`, signed (R176). -/
def relLtq (x y : Word) : Bool := decide (s32 x ≤ s32 y)

end Sys2Proof.Machine
end

