-- ==== Sys2Proof/Machine/CompareBranch.lean ====
section
/-! DEFINITION. Comparisons and conditional jumps (44_compare_branch.md). -/

namespace Sys2Proof.Machine

/-- The frame of every comparison (R170): `flag <- REL(x[a], x[b])`, `pc <- p + 3`. -/
def State.compare (s : State) (a b : Byte) (rel : Word → Word → Bool) : Host.Outcome State Fault Refusal :=
  s.settle (do
    let (x, y) ← s.operandsRR a b
    return (s.writeFlag (rel x y)).advance 3) .continues

/-- EQ (R171). -/
def execEq (a b : Byte) (s : State) : Host.Outcome State Fault Refusal := s.compare a b relEq

/-- NEQ (R172). -/
def execNeq (a b : Byte) (s : State) : Host.Outcome State Fault Refusal := s.compare a b relNeq

/-- GT (R173). -/
def execGt (a b : Byte) (s : State) : Host.Outcome State Fault Refusal := s.compare a b relGt

/-- LT (R174). -/
def execLt (a b : Byte) (s : State) : Host.Outcome State Fault Refusal := s.compare a b relLt

/-- GTQ (R175). -/
def execGtq (a b : Byte) (s : State) : Host.Outcome State Fault Refusal := s.compare a b relGtq

/-- LTQ (R176). -/
def execLtq (a b : Byte) (s : State) : Host.Outcome State Fault Refusal := s.compare a b relLtq

/-- The frame of the conditional jumps: the target and the flag are read on both paths; the jump is taken when the flag
has the polarity, else `pc <- p + 2` (R177, R178; 90_conflicts.md C2). -/
def State.jumpIf (s : State) (t : Byte) (polarity : Bool) : Host.Outcome State Fault Refusal :=
  s.settle (do
    let (x, f) ← s.operandRFlag t
    return if f = polarity then s.setPc x else s.advance 2) .continues

/-- JEQ (R177): jump if the flag is true. -/
def execJeq (t : Byte) (s : State) : Host.Outcome State Fault Refusal := s.jumpIf t true

/-- JNEQ (R178): jump if the flag is false. -/
def execJneq (t : Byte) (s : State) : Host.Outcome State Fault Refusal := s.jumpIf t false

end Sys2Proof.Machine
end

