-- ==== Sys2Proof/Machine/ControlHeap.lean ====
section
/-! DEFINITION. Halt, illegal, no-op and heap allocation (45_control_heap.md). -/

namespace Sys2Proof.Machine

/-- HALT (R190): `pc <- p + 1`, `Halted(HaltInstr)`; the halt is not sticky (log entry 7). -/
def execHalt (s : State) : Host.Outcome State Fault Refusal :=
  s.settle (.ok (s.advance 1)) (.halted .haltInstr)

/-- ILLEGAL (R191): `pc <- p + 1`, `Halted(IllegalInstr)`; a clean halt, not a fault (30_encoding.md R68). -/
def execIllegal (s : State) : Host.Outcome State Fault Refusal :=
  s.settle (.ok (s.advance 1)) (.halted .illegalInstr)

/-- NOP (R192): `pc <- p + 1`. -/
def execNop (s : State) : Host.Outcome State Fault Refusal :=
  s.settle (.ok (s.advance 1)) .continues

/-- The number of bytes ALOC appends (R193): `AllocNegative` for a negative count, then `HeapExhausted` for one that
takes the heap past `HEAP_MAX`. -/
def State.allocCount (s : State) (x : Word) : Except Fault Nat :=
  if s32 x < 0 then .error .allocNegative
  else if (s.heap.size : Int) + s32 x > (s.cfg.heapMax : Int) then .error .heapExhausted
  else .ok (s32 x).toNat

/-- ALOC (R193): the heap grows by `x[t]` zero bytes, `pc <- p + 2`. -/
def execAloc (t : Byte) (s : State) : Host.Outcome State Fault Refusal :=
  s.settle (do
    let x ← s.operandR t
    let n ← s.allocCount x
    return (s.growHeap n).advance 2) .continues

end Sys2Proof.Machine
end

