-- ==== Sys2Proof/Machine/Jumps.lean ====
section
/-! DEFINITION. Unconditional jumps (43_jumps.md). No target is checked against the buffer's length (R153). -/

namespace Sys2Proof.Machine

/-- The pc of a relative jump's exact target; `PcUnderflow` for a negative one (R151). It fits in 32 bits in a step
(10_state.md R25; log entry 9). -/
def relativeTarget (target : Int) : Except Fault Word :=
  if target < 0 then .error .pcUnderflow else .ok (u32 target)

/-- JMP (R150): `pc <- u32(x[t])`. -/
def execJmp (t : Byte) (s : State) : Host.Outcome State Fault Refusal :=
  s.settle (do
    let x ← s.operandR t
    return s.setPc x) .continues

/-- JMPF (R151): `target <- (p + 2) + x[t]`, an exact integer. -/
def execJmpf (t : Byte) (s : State) : Host.Outcome State Fault Refusal :=
  s.settle (do
    let x ← s.operandR t
    let target ← relativeTarget ((s.pc.toNat + 2 : Int) + s32 x)
    return s.setPc target) .continues

/-- JMPB (R152): `target <- (p + 2) - x[t]`, an exact integer. -/
def execJmpb (t : Byte) (s : State) : Host.Outcome State Fault Refusal :=
  s.settle (do
    let x ← s.operandR t
    let target ← relativeTarget ((s.pc.toNat + 2 : Int) - s32 x)
    return s.setPc target) .continues

end Sys2Proof.Machine
end

