-- ==== Sys2Proof/Machine/Load.lean ====
section
/-! DEFINITION. Load immediate (41_load.md). -/

namespace Sys2Proof.Machine

/-- R120: `x[d] <- s32(zext_32(imm16))`, `pc <- p + 4`. The immediate is never sign-extended (30_encoding.md R67). -/
def execLoad (d : Byte) (imm : Imm16) (s : State) : Host.Outcome State Fault Refusal :=
  s.settle (do
    let id ← regIndex d
    return (s.writeReg id (imm.setWidth 32)).advance 4) .continues

end Sys2Proof.Machine
end

