-- ==== Sys2Proof/Machine/Dispatch.lean ====
section
/-! DEFINITION. The meaning of each instruction: one arm per row of spec/opcode_table.json (40_step.md R105). -/

namespace Sys2Proof.Machine

def exec (i : Instr) (s : State) : Host.Outcome State Fault Refusal :=
  match i with
  | .load d imm => Sys2Proof.Machine.execLoad d imm s
  | .add a b d => Sys2Proof.Machine.execAdd a b d s
  | .sub a b d => Sys2Proof.Machine.execSub a b d s
  | .mul a b d => Sys2Proof.Machine.execMul a b d s
  | .div a b d => Sys2Proof.Machine.execDiv a b d s
  | .halt => Sys2Proof.Machine.execHalt s
  | .jmp t => Sys2Proof.Machine.execJmp t s
  | .jmpf t => Sys2Proof.Machine.execJmpf t s
  | .jmpb t => Sys2Proof.Machine.execJmpb t s
  | .eq a b => Sys2Proof.Machine.execEq a b s
  | .neq a b => Sys2Proof.Machine.execNeq a b s
  | .gt a b => Sys2Proof.Machine.execGt a b s
  | .lt a b => Sys2Proof.Machine.execLt a b s
  | .gtq a b => Sys2Proof.Machine.execGtq a b s
  | .ltq a b => Sys2Proof.Machine.execLtq a b s
  | .jeq t => Sys2Proof.Machine.execJeq t s
  | .jneq t => Sys2Proof.Machine.execJneq t s
  | .aloc t => Sys2Proof.Machine.execAloc t s
  | .nop => Sys2Proof.Machine.execNop s
  | .illegal => Sys2Proof.Machine.execIllegal s

end Sys2Proof.Machine
end

