-- ==== Sys2Proof/Machine/Fetch.lean ====
section
/-! DEFINITION. Fetching an instruction and the steps that run none (40_step.md R100 to R102, R108). -/

namespace Sys2Proof.Machine

/-- The instruction at pc: the opcode byte and then the operand bytes its length asks for, byte by byte in increasing
offset order, decoded (R101, R102). No instruction is longer than 4 bytes (30_encoding.md R64). -/
def State.fetch (s : State) : Except DecodeError Instr :=
  match decode s.cfg (s.buffer.window s.pc.toNat 4) with
  | .ok (i, _) => .ok i
  | .error e => .error e

/-- A step from a state whose fault record holds a fault: `Faulted(cause)`, and nothing changes (R108). -/
def State.stepFaulted (s : State) (r : FaultRecord) : State :=
  s.withOutcome (.faulted r.cause)

/-- A step that finds no instruction at pc: at the end of the buffer `Halted(EndOfBuffer)` with no state changed (R100);
where the operand bytes run past the end, the fault `Truncated` (R102). -/
def State.stepNoInstr (s : State) : DecodeError → State
  | .noOpcode => s.withOutcome (.halted .endOfBuffer)
  | .truncated => s.raise .truncated

/-- The state with bytes placed where the next step fetches: from pc on, and no fault recorded, since a step with a
recorded fault does not fetch (log entry 12). -/
def State.placeAtPc (s : State) (bs : List Byte) : State :=
  { s with buffer := s.buffer.pokeAll s.pc.toNat bs, fault := none }

end Sys2Proof.Machine
end

