-- ==== Sys2Proof/Machine/Step.lean ====
section
/-! DEFINITION. One step of the engine (40_step.md R105). -/

namespace Sys2Proof.Machine

/-- The step function of R105: the fault record, then the end of the buffer, then truncation, then the instruction. -/
def step (s : State) : Host.Outcome State Fault Refusal :=
  match s.fault with
  | some r => .next (s.stepFaulted r)
  | none =>
    match s.fetch with
    | .error e => .next (s.stepNoInstr e)
    | .ok i => exec i s

/-- The state whose next step fetches and runs the instruction of a table word (log entry 12). -/
def State.withFetchWord (s : State) (nbits w : Nat) : State :=
  s.placeAtPc (tableWordBytes nbits w)

end Sys2Proof.Machine
end

