-- ==== Sys2Proof/Machine/Assembler.lean ====
section
/-! DEFINITION. The assembler (30_encoding.md R80 to R92): tokens, the five line shapes, the encoder of structured
instructions, and compile. It is surrounding software: it says which bytes a text produces and gives them no meaning
(00_scope.md R4, R6). A text is a list of characters (log entry 14). -/

namespace Sys2Proof.Machine

/-! ### Lexical structure (R80 to R83) -/

/-- Whitespace: space, tab, carriage return, line feed (R80, D35). -/
def isBlank (c : Char) : Bool := c == ' ' || c == '\t' || c == '\r' || c == '\n'

/-- Alphabetic: the ASCII letters (R83, D35). -/
def isLetter (c : Char) : Bool := ('a' ≤ c && c ≤ 'z') || ('A' ≤ c && c ≤ 'Z')

/-- A decimal digit. -/
def isDecimal (c : Char) : Bool := '0' ≤ c && c ≤ '9'

/-- The pieces of a text between separators, `cur` holding the piece being read; empty pieces are kept. -/
def splitOnChar (sep : Char → Bool) (cur : List Char) : List Char → List (List Char)
  | [] => [cur]
  | c :: cs => if sep c then cur :: splitOnChar sep [] cs else splitOnChar sep (cur ++ [c]) cs

/-- The whitespace-separated fields of a text (R80). -/
def fieldsOf (text : List Char) : List (List Char) :=
  (splitOnChar isBlank [] text).filter (fun f => !f.isEmpty)

/-- The lines of a text, split at line feeds (R89). -/
def linesOf (text : List Char) : List (List Char) :=
  splitOnChar (fun c => c == '\n') [] text

/-- The value of a digit string, most significant digit first. -/
def decimalValue (ds : List Char) : Nat :=
  ds.foldl (fun n c => 10 * n + (c.toNat - '0'.toNat)) 0

/-- One or more decimal digits. -/
def isDecimalString (ds : List Char) : Bool := !ds.isEmpty && ds.all isDecimal

/-- The mnemonic column of R61, with D4's spellings of halt and nop; ILLEGAL has none. -/
def mnemonics : List (List Char × Op) :=
  [(['l', 'o', 'a', 'd'], .load), (['a', 'd', 'd'], .add), (['s', 'u', 'b'], .sub), (['m', 'u', 'l'], .mul),
   (['d', 'i', 'v'], .div), (['h', 'a', 'l', 't'], .halt), (['j', 'm', 'p'], .jmp), (['j', 'm', 'p', 'f'], .jmpf),
   (['j', 'm', 'p', 'b'], .jmpb)] ++
  [(['e', 'q'], .eq), (['n', 'e', 'q'], .neq), (['g', 't'], .gt), (['l', 't'], .lt), (['g', 't', 'q'], .gtq),
   (['l', 't', 'q'], .ltq), (['j', 'e', 'q'], .jeq), (['j', 'n', 'e', 'q'], .jneq), (['a', 'l', 'o', 'c'], .aloc),
   (['n', 'o', 'p'], .nop)]

/-- `fromMnemonic` (R83): exact, case-sensitive match; every other string gives ILLEGAL. -/
def fromMnemonic (name : List Char) : Op :=
  match mnemonics.find? (fun m => m.1 == name) with
  | some (_, op) => op
  | none => .illegal

/-- The three token kinds (R80). -/
inductive Token
  | opcode (op : Op)
  | reg (i : Byte)
  | int (v : Int)
  deriving DecidableEq, Repr

/-- A register token's digits: an unsigned integer in [0,255], else a failure (R81, D21). -/
def lexRegister (ds : List Char) : Option Token :=
  if isDecimalString ds && decide (decimalValue ds ≤ 255) then some (.reg (BitVec.ofNat 8 (decimalValue ds))) else none

/-- An integer token's sign and digits: a value from -32768 to 32767, else a failure (R82, D20). -/
def lexInteger (negative : Bool) (ds : List Char) : Option Token :=
  let v : Int := if negative then -(decimalValue ds : Int) else (decimalValue ds : Int)
  if isDecimalString ds && decide (-32768 ≤ v) && decide (v ≤ 32767) then some (.int v) else none

/-- One field as a token (R80 to R83): `$` digits, `#` sign digits, or a run of letters. -/
def lexField : List Char → Option Token
  | [] => none
  | '$' :: ds => lexRegister ds
  | '#' :: '-' :: ds => lexInteger true ds
  | '#' :: '+' :: ds => lexInteger false ds
  | '#' :: ds => lexInteger false ds
  | c :: cs => if (c :: cs).all isLetter then some (.opcode (fromMnemonic (c :: cs))) else none

/-- The tokens of a text, or a failure at the first field that is no token. -/
def tokensOf (text : List Char) : Option (List Token) :=
  (fieldsOf text).mapM lexField

/-! ### Shapes (R84, R85) -/

/-- The five shapes; a line matches when its tokens are exactly the sequence (R84, D27). No opcode is tied to a shape
(R85). -/
def matchShape : List Token → Option AsmInstr
  | [.opcode op, .reg r, .int v] => some { op := op, operands := [.reg r, .int v] }
  | [.opcode op, .reg a, .reg b, .reg d] => some { op := op, operands := [.reg a, .reg b, .reg d] }
  | [.opcode op, .reg a, .reg b] => some { op := op, operands := [.reg a, .reg b] }
  | [.opcode op, .reg t] => some { op := op, operands := [.reg t] }
  | [.opcode op] => some { op := op, operands := [] }
  | _ => none

/-- One line against the five shapes. -/
def parseLine (text : List Char) : Option AsmInstr :=
  (tokensOf text).bind matchShape

/-- `FormOneOnly` (R89): the tokens are a sequence of shape-1 instructions. -/
def matchFormOnes : List Token → Option AsmProgram
  | [] => some []
  | .opcode op :: .reg r :: .int v :: rest =>
    (matchFormOnes rest).map (fun p => { op := op, operands := [.reg r, .int v] } :: p)
  | _ => none

/-- Whole-program parsing in the two modes (R89; log entry 15 for an empty text). -/
def parseProgram (mode : ParseMode) (text : List Char) : Option AsmProgram :=
  match mode with
  | .formOneOnly => (tokensOf text).bind matchFormOnes
  | .perLine => ((linesOf text).filter (fun line => !line.all isBlank)).mapM parseLine

/-! ### Encoding (R86 to R88) -/

/-- `u16(v)`: the integer narrowed to 16 bits (R86). -/
def u16 (v : Int) : Imm16 := BitVec.ofInt 16 v

/-- The bytes of one operand: one for a register, two for an integer, high byte first; an opcode operand is a contract
violation and is refused (R86, R87). -/
def encodeOperand : Operand → Option (List Byte)
  | .reg i => some [i]
  | .int v => some [immHigh (u16 v), immLow (u16 v)]
  | .opcode _ => none

/-- The bytes of operands in declared order (R86). -/
def encodeOperands : List Operand → Option (List Byte)
  | [] => some []
  | o :: os => do
    let b ← encodeOperand o
    let bs ← encodeOperands os
    return b ++ bs

/-- `encode(op, operands)` of R86; refused for NOP where `NOP_BYTE` is none. -/
def encodeAsm (c : Config) (i : AsmInstr) : Option (List Byte) := do
  let ob ← encodeOp c i.op
  let bs ← encodeOperands i.operands
  return ob :: bs

/-- `toBytes(Program)` (R88): the encodings in order, with nothing between them. -/
def programBytes (c : Config) : AsmProgram → Option (List Byte)
  | [] => some []
  | i :: rest => do
    let bs ← encodeAsm c i
    let more ← programBytes c rest
    return bs ++ more

/-- `compile(text)` of a whole program under `PARSE_MODE` (R89, R90): its bytes, or a failure with no bytes (D31). -/
def compile (c : Config) (text : List Char) : Option (List Byte) :=
  (parseProgram c.parseMode text).bind (programBytes c)

/-- `compile` of a single-line entry: against all five shapes whatever `PARSE_MODE` says (R90). -/
def compileLine (c : Config) (text : List Char) : Option (List Byte) :=
  (parseLine text).bind (encodeAsm c)

/-! ### Canonical forms (R91) -/

/-- The canonical structured form of an instruction: the shape whose encoding matches its operation's format. A load's
immediate is written as the literal in -32768..32767 that narrows to it (R82). -/
def canonicalForm : Instr → AsmInstr
  | .load d imm => { op := .load, operands := [.reg d, .int imm.toInt] }
  | .add a b d => { op := .add, operands := [.reg a, .reg b, .reg d] }
  | .sub a b d => { op := .sub, operands := [.reg a, .reg b, .reg d] }
  | .mul a b d => { op := .mul, operands := [.reg a, .reg b, .reg d] }
  | .div a b d => { op := .div, operands := [.reg a, .reg b, .reg d] }
  | .halt => { op := .halt, operands := [] }
  | .jmp t => { op := .jmp, operands := [.reg t] }
  | .jmpf t => { op := .jmpf, operands := [.reg t] }
  | .jmpb t => { op := .jmpb, operands := [.reg t] }
  | .eq a b => { op := .eq, operands := [.reg a, .reg b] }
  | .neq a b => { op := .neq, operands := [.reg a, .reg b] }
  | .gt a b => { op := .gt, operands := [.reg a, .reg b] }
  | .lt a b => { op := .lt, operands := [.reg a, .reg b] }
  | .gtq a b => { op := .gtq, operands := [.reg a, .reg b] }
  | .ltq a b => { op := .ltq, operands := [.reg a, .reg b] }
  | .jeq t => { op := .jeq, operands := [.reg t] }
  | .jneq t => { op := .jneq, operands := [.reg t] }
  | .aloc t => { op := .aloc, operands := [.reg t] }
  | .nop => { op := .nop, operands := [] }
  | .illegal => { op := .illegal, operands := [] }

end Sys2Proof.Machine
end

