-- ==== Sys2Proof/Machine/HostOps.lean ====
section
/-! DEFINITION. The host interface (60_exceptions.md R230): the operations the host calls on the block, one at a time,
never during a step. -/

namespace Sys2Proof.Machine

/-- `reset` (R230): all state to the reset state of 70_reset_and_hazards.md R240; the configuration stays. -/
def hostReset (s : State) : State := State.resetWith s.cfg

/-- `appendBytes` (R230, 20_memory.md R41): the buffer grows by the bytes at its end and the call is accepted, or, past
`MAX_PROGRAM_BYTES`, the call is refused as a whole with no change. -/
def appendBytes (s : State) (bs : List Byte) : State × Bool :=
  if s.buffer.size + bs.length > s.cfg.maxProgramBytes then (s, false)
  else ({ s with buffer := s.buffer.append bs }, true)

/-- `step` / `runOnce` (40_step.md R107): one step and its outcome. None would say that the step answered no next state,
which no step does. -/
def runOnce (s : State) : Option (State × StepOutcome) :=
  match step s with
  | .next t => some (t, t.outcome)
  | .fault _ => none
  | .refused _ => none

/-- `runOnce`'s boolean (R107): `outcome != Continue`. -/
def StepOutcome.stops (o : StepOutcome) : Bool := decide (o ≠ .continues)

/-- `run` / `runToHalt` (40_step.md R107) under fuel: steps until an outcome other than `Continue`, and returns it with
the state after that step. None where the fuel runs out, which is no outcome of the block (log entry 16). -/
def run : Nat → State → Option (State × StepOutcome)
  | 0, _ => none
  | fuel + 1, s =>
    match runOnce s with
    | none => none
    | some (t, o) => if o.stops then some (t, o) else run fuel t

/-- What `snapshot` returns (R230): every cell as a value or as unwritten. -/
structure Snapshot where
  regs : Vector (Option Word) 32
  pc : Word
  flag : Option Bool
  rem : Option Word
  heap : Memory
  buffer : Memory
  fault : Option FaultRecord
  deriving DecidableEq, Repr

/-- `snapshot` (R230): read-only. -/
def snapshot (s : State) : Snapshot where
  regs := s.regs.map (fun c => c.shown s.cfg.resetPolicy)
  pc := s.pc
  flag := s.flag.shown s.cfg.resetPolicy
  rem := s.rem.shown s.cfg.resetPolicy
  heap := s.heap
  buffer := s.buffer
  fault := s.fault

/-- The host's moves (R230). `run` is a sequence of steps (40_step.md R107) and needs no move of its own. -/
inductive HostCall
  | reset
  | appendBytes (bs : List Byte)
  | runOnce
  | snapshot
  | compile (text : List Char)
  deriving DecidableEq, Repr

/-- What a host call leaves of the block's state; snapshot and compile change nothing in the block (R230). -/
def HostCall.apply (s : State) : HostCall → State
  | .reset => hostReset s
  | .appendBytes bs => (Sys2Proof.Machine.appendBytes s bs).1
  | .runOnce =>
    match Sys2Proof.Machine.runOnce s with
    | some (t, _) => t
    | none => s
  | .snapshot => s
  | .compile _ => s

/-- The host's calls form a single total order (20_memory.md R48; log entry 18). -/
def hostCalls (s : State) (calls : List HostCall) : State :=
  calls.foldl HostCall.apply s

end Sys2Proof.Machine
end

