-- ==== Sys2Proof/Safety.lean ====
section
/-! DEFINITION. What the claims speak of: the invariant of the machine, runs that end normally, what two states share,
and the `Zero`-policy twin of a state. -/

namespace Sys2Proof.Machine

/-- The state that fault entry leaves (60_exceptions.md R211): the record `(F, p, ob)`, the outcome `Faulted(F)`, and
nothing else changed. -/
def State.faultEntry (s : State) (cause : Fault) (ob : Byte) : State :=
  { s with
    fault := some { cause := cause, fpc := s.pc, opbyte := ob }
    outcome := .faulted cause }

/-- The outcome is a fault's. -/
def StepOutcome.isFault : StepOutcome → Bool
  | .continues => false
  | .halted _ => false
  | .faulted _ => true

/-- Both byte stores have the same length and read alike at every address. -/
structure State.SameStores (s t : State) : Prop where
  bufferSize : t.buffer.size = s.buffer.size
  bufferRead : ∀ a, t.buffer.read a = s.buffer.read a
  heapSize : t.heap.size = s.heap.size
  heapRead : ∀ a, t.heap.read a = s.heap.read a

/-- The invariant of the machine: a configuration that 00_scope.md R8 allows; byte stores in canonical form, within
their bounds (20_memory.md R41, R44), the heap all zero (R44); a fault record that names the instruction at pc
(60_exceptions.md R211); and, under the `Zero` policy, nothing unwritten (10_state.md R21, R26, R27). -/
structure State.Inv (s : State) : Prop where
  cfgWf : s.cfg.wf = true
  bufferWf : s.buffer.wf = true
  bufferBound : s.buffer.size ≤ s.cfg.maxProgramBytes
  heapWf : s.heap.wf = true
  heapBound : s.heap.size ≤ s.cfg.heapMax
  heapZero : ∀ a v, s.heap.read a = some v → v = 0#8
  faultAtPc : ∀ r, s.fault = some r → r.fpc = s.pc ∧ s.buffer.read s.pc.toNat = some r.opbyte
  regsWritten : s.cfg.resetPolicy = .zero → ∀ i, (s.reg i).written = true
  flagWritten : s.cfg.resetPolicy = .zero → s.flag.written = true
  remWritten : s.cfg.resetPolicy = .zero → s.rem.written = true

/-- A run that ends normally, at the halt reason a claim names, with no fault recorded (60_exceptions.md R221). -/
def HaltsNormally (fuel : Nat) (s : State) (reason : HaltReason) (t : State) : Prop :=
  run fuel s = some (t, .halted reason) ∧ t.fault = none

/-- The bytes of an operand on the wire, from R86's own formula: a register's index, or `u16(v)[15:8]` and then
`u16(v)[7:0]` with `u16(v) = v mod 65536`. -/
def operandWire : Operand → List Byte
  | .reg i => [i]
  | .int v => [BitVec.ofInt 8 (v / 256), BitVec.ofInt 8 v]
  | .opcode _ => []

/-- The number of bytes of an operand on the wire (R86): 1 if a register, 2 if an integer. -/
def operandWidth : Operand → Nat
  | .reg _ => 1
  | .int _ => 2
  | .opcode _ => 0

/-- A cell of the `Zero`-policy twin: the cell itself where it is written, else written with zero (70_reset_and_hazards.md
R241: "Under `Zero`, it reads 0 or false"). -/
def Cell.zeroTwin {α : Type} (zero : α) (c : Cell α) : Cell α :=
  if c.written then c else { value := zero, written := true }

/-- The state that a machine under the `Zero` policy has where a machine under `Unwritten` has `s`. -/
def State.zeroTwin (s : State) : State :=
  { s with
    cfg := { s.cfg with resetPolicy := .zero }
    regs := s.regs.map (Cell.zeroTwin 0#32)
    flag := s.flag.zeroTwin false
    rem := s.rem.zeroTwin 0#32 }

end Sys2Proof.Machine
end

