-- ==== Sys2Proof/Certificates/Slice0/Obligations.lean ====
section
/-! DEFINITION. The statements for the provers, from the numbered rules of spec/. Each docstring names the rule it
formalises, or says that it is derived and from what. -/

open Sys2Proof Sys2Proof.Machine

/-! ### Reset (70_reset_and_hazards.md) -/

/-- Derived, from R240 and its decisions D6, D16 and D30. Every piece of the spec's state after reset, under either
policy, and the step right after it. The value of the model's own outcome field (log entry 5) is not stated. -/
def Obligations.ResetSetsEveryPieceOfState : Prop :=
  ∀ s : State, ∀ t : State, t = hostReset s →
    t.pc.toNat = 0 ∧ t.heap.size = 0 ∧ t.buffer.size = 0 ∧ t.fault = none ∧
    (s.cfg.resetPolicy = .unwritten →
      (∀ i, (t.reg i).shown t.cfg.resetPolicy = none) ∧ t.flag.shown t.cfg.resetPolicy = none ∧
        t.rem.shown t.cfg.resetPolicy = none) ∧
    (s.cfg.resetPolicy = .zero →
      (∀ i, (t.reg i).shown t.cfg.resetPolicy = some 0) ∧ t.flag.shown t.cfg.resetPolicy = some false ∧
        t.rem.shown t.cfg.resetPolicy = some 0) ∧
    step t = .next { t with outcome := .halted .endOfBuffer }

/-- Derived. The invariant holds after a reset under every configuration that R8 allows, and at `State.reset`, whose
configuration is the model's choice (log entries 1 and 4). -/
def Obligations.InvariantHoldsAtReset : Prop :=
  (∀ c : Config, c.wf = true → (State.resetWith c).Inv) ∧ State.reset.Inv

/-! ### Encoding (30_encoding.md) -/

/-- Derived, from R63 and its decision D3. `toByte` and `fromByte` are inverse on every operation but ILLEGAL; NOP has
a byte exactly where `NOP_BYTE` is a value; the byte emitted for ILLEGAL decodes back to it. -/
def Obligations.ToByteInvertsFromByte : Prop :=
  ∀ c : Config, c.wf = true →
    (∀ op b, toByte c op = some b → fromByte c b = op) ∧
    (∀ op, op ≠ .illegal → op ≠ .nop → (toByte c op).isSome = true) ∧
    ((toByte c .nop).isSome = true ↔ c.nopByte ≠ none) ∧
    (∀ bs, encode c .illegal = some bs → bs = [c.illegalEncodeByte]) ∧
    fromByte c c.illegalEncodeByte = .illegal ∧ Config.reference.illegalEncodeByte = 0xFF

/-- Derived, with R61 and R64: instruction words written out byte by byte from the encodings of 41_load.md to
45_control_heap.md decode to the instructions they stand for, one of each format and the first illegal byte; with
`NOP_BYTE = some 0x12`, the byte 0x12 is nop. -/
def Obligations.SpecWordsDecode : Prop :=
  decode Config.reference [0x00, 0x05, 0x80, 0x01] = .ok (.load 5 0x8001, []) ∧
  decode Config.reference [0x02, 0x00, 0x01, 0x28, 0x05] = .ok (.sub 0 1 40, [0x05]) ∧
  decode Config.reference [0x0D, 0x03, 0xC8] = .ok (.gtq 3 200, []) ∧
  decode Config.reference [0x10, 0x03, 0x05] = .ok (.jneq 3, [0x05]) ∧
  decode Config.reference [0x11, 0x07] = .ok (.aloc 7, []) ∧
  decode Config.reference [0x05] = .ok (.halt, []) ∧
  decode Config.reference [0x12] = .ok (.illegal, []) ∧
  decode { Config.reference with nopByte := some 0x12 } [0x12] = .ok (.nop, [])

/-- Derived, from R63, R64 and R93. For every well-formed instruction, with every register byte and every immediate,
the encoder answers bytes that the decoder reads back, whatever follows them. -/
def Obligations.DecodeOfEncodeIsTheInstruction : Prop :=
  ∀ (c : Config) (i : Instr) (rest : List Byte), c.wf = true → i.wf c = true →
    ∃ bs, encode c i = some bs ∧ decode c (bs ++ rest) = .ok (i, rest)

/-- Derived, from R62, R63 and R64. What the decoder reads has one encoding: but for the illegal operation, which many
bytes stand for, encoding the decoded instruction gives back the very bytes consumed. -/
def Obligations.EncodeOfDecodeIsTheBytes : Prop :=
  ∀ (c : Config) (bs rest : List Byte) (i : Instr), c.wf = true → decode c bs = .ok (i, rest) → i ≠ .illegal →
    ∃ e, encode c i = some e ∧ bs = e ++ rest

/-- Derived, from R65 and, for the length of jeq and jneq, its decision D5. The opcode byte alone fixes an
instruction's length: the decoder consumes exactly `length(op)` bytes, it answers whenever that many are there, and
the lengths are those of the rule; jeq and jneq are 2 bytes long. -/
def Obligations.OpcodeByteFixesTheLength : Prop :=
  (∀ (c : Config) (ob : Byte) (bs : List Byte),
    ((fromByte c ob).length ≤ bs.length + 1 ↔ ∃ i rest, decode c (ob :: bs) = .ok (i, rest)) ∧
    (∀ i rest, decode c (ob :: bs) = .ok (i, rest) →
      i.op = fromByte c ob ∧ bs.length + 1 = (fromByte c ob).length + rest.length)) ∧
  (∀ op, op ∈ [Op.load, .add, .sub, .mul, .div] → op.length = 4) ∧
  (∀ op, op ∈ [Op.eq, .neq, .gt, .lt, .gtq, .ltq] → op.length = 3) ∧
  (∀ op, op ∈ [Op.jmp, .jmpf, .jmpb, .jeq, .jneq, .aloc] → op.length = 2) ∧
  (∀ op, op ∈ [Op.halt, .nop, .illegal] → op.length = 1)

/-- R68. A byte that is neither in the opcode map nor `NOP_BYTE` decodes to ILLEGAL, and executing it halts with
`IllegalInstr`: pc advances by 1, nothing else changes, no fault is recorded. No operand value makes an opcode
illegal: a bad one is an execution fault. -/
def Obligations.IllegalBytesHaltWithoutFault : Prop :=
  (∀ (s : State) (ob : Byte), s.fault = none → s.buffer.read s.pc.toNat = some ob → 0x11 < ob.toNat →
    s.cfg.nopByte ≠ some ob →
    fromByte s.cfg ob = .illegal ∧
    step s = .next { s with pc := s.pc + 1, outcome := .halted .illegalInstr }) ∧
  (∀ (c : Config) (ob : Byte) (bs rest : List Byte) (i : Instr), c.wf = true → ob.toNat ≤ 0x11 →
    decode c (ob :: bs) = .ok (i, rest) → i ≠ .illegal) ∧
  (∀ (s : State) (i : Instr) (rest : List Byte), s.fault = none →
    decode s.cfg (s.buffer.window s.pc.toNat 4) = .ok (i, rest) → (∃ f ∈ i.regFields, 32 ≤ f.toNat) →
    ∃ t, step s = .next t ∧ t.outcome = .faulted .badRegister)

/-- R67. Load's immediate is `byte2 * 256 + byte3`, zero-extended, so the value written is between 0 and 65535; the
literal `#-1` is encoded as 0xFFFF and the load of it writes 65535; no other instruction has an immediate: its operand
bytes are its register fields. -/
def Obligations.LoadImmediateIsUnsignedBigEndian : Prop :=
  (∀ (s : State) (ob hi lo : Byte) (d : RegId), s.fault = none → fromByte s.cfg ob = .load →
    s.buffer.window s.pc.toNat 4 = [ob, regByte d, hi, lo] →
    ∃ v : Word, v.toInt = hi.toNat * 256 + lo.toNat ∧ 0 ≤ v.toInt ∧ v.toInt ≤ 65535 ∧
      step s = .next
        { s with
          regs := s.regs.set d.val { value := v, written := true }
          pc := s.pc + 4
          outcome := .continues }) ∧
  (∀ (c : Config) (ob d : Byte), toByte c .load = some ob →
    encodeAsm c { op := .load, operands := [.reg d, .int (-1)] } = some [ob, d, 0xFF, 0xFF]) ∧
  (∀ i : Instr, i.op ≠ .load → operandBytes i = i.regFields)

/-! ### The assembler (30_encoding.md section 4) -/

/-- Derived, from R86 and, for NOP, its decision D2. The encoder of structured instructions: the operation's byte,
then one byte for a register and two for an integer, the more significant first, in declared order; NOP is refused
where `NOP_BYTE` is none. -/
def Obligations.EncoderEmitsOpcodeThenOperands : Prop :=
  (∀ (c : Config) (op : Op) (os : List Operand) (ob : Byte),
    (if op = .illegal then some c.illegalEncodeByte else toByte c op) = some ob →
    (∀ o ∈ os, ∀ p, o ≠ .opcode p) →
    ∃ bs, encodeAsm c { op := op, operands := os } = some bs ∧
      bs = ob :: os.flatMap operandWire ∧ bs.length = 1 + (os.map operandWidth).sum) ∧
  (∀ (c : Config) (os : List Operand), c.nopByte = none → encodeAsm c { op := .nop, operands := os } = none)

/-- R87. An operand that is itself an opcode token is refused, wherever it stands, and the term that holds it is ill
formed; and no source text produces one, neither a line nor a whole program in either mode. -/
def Obligations.OpcodeOperandIsRefused : Prop :=
  (∀ (c : Config) (i : AsmInstr) (p : Op), .opcode p ∈ i.operands → encodeAsm c i = none ∧ i.wf c = false) ∧
  (∀ (text : List Char) (i : AsmInstr) (p : Op), parseLine text = some i → .opcode p ∉ i.operands) ∧
  (∀ (mode : ParseMode) (text : List Char) (prog : AsmProgram) (i : AsmInstr) (p : Op),
    parseProgram mode text = some prog → i ∈ prog → .opcode p ∉ i.operands)

/-- R88. A program's bytes are the encodings of its instructions in order, with nothing between them; the first
instruction's opcode byte stands at offset 0. -/
def Obligations.ProgramBytesAreConcatenated : Prop :=
  (∀ (c : Config) (p : AsmProgram) (es : List (List Byte)),
    p.map (encodeAsm c) = es.map some → programBytes c p = some es.flatten) ∧
  (∀ (c : Config) (i : AsmInstr) (p : AsmProgram) (bs : List Byte), programBytes c (i :: p) = some bs →
    bs[0]? = encodeOp c i.op)

/-- Derived, from R83, the mnemonic column of R61 (the spellings of halt and nop are its decision D4) and the character
classes of D35. A run of letters is an opcode token; each of the 19 mnemonics of the column, written out here, resolves
to its operation, by exact match, and every other string is ILLEGAL. -/
def Obligations.MnemonicsResolveExactly : Prop :=
  (∀ column : List (String × Op),
    column =
      [("load", .load), ("add", .add), ("sub", .sub), ("mul", .mul), ("div", .div), ("halt", .halt), ("jmp", .jmp),
       ("jmpf", .jmpf), ("jmpb", .jmpb), ("eq", .eq), ("neq", .neq), ("gt", .gt), ("lt", .lt), ("gtq", .gtq),
       ("ltq", .ltq), ("jeq", .jeq), ("jneq", .jneq), ("aloc", .aloc), ("nop", .nop)] →
    (∀ p ∈ column, fromMnemonic p.1.toList = p.2) ∧
    (∀ name : List Char, (∀ p ∈ column, p.1.toList ≠ name) → fromMnemonic name = .illegal)) ∧
  (∀ name, name ≠ [] → (∀ c ∈ name, ('a' ≤ c ∧ c ≤ 'z') ∨ ('A' ≤ c ∧ c ≤ 'Z')) →
    lexField name = some (.opcode (fromMnemonic name))) ∧
  fromMnemonic "LOAD".toList = .illegal ∧ fromMnemonic "hlt".toList = .illegal ∧
  fromMnemonic "illegal".toList = .illegal

/-- Derived, from R84 and its decision D27. A line parses exactly when its tokens are one of the five shapes and
nothing else. -/
def Obligations.LinesMatchExactlyFiveShapes : Prop :=
  ∀ (text : List Char) (op : Op) (os : List Operand),
    parseLine text = some { op := op, operands := os } ↔
      ∃ ts, tokensOf text = some ts ∧
        ((∃ r v, ts = [.opcode op, .reg r, .int v] ∧ os = [.reg r, .int v]) ∨
         (∃ a b d, ts = [.opcode op, .reg a, .reg b, .reg d] ∧ os = [.reg a, .reg b, .reg d]) ∨
         (∃ a b, ts = [.opcode op, .reg a, .reg b] ∧ os = [.reg a, .reg b]) ∨
         (∃ r, ts = [.opcode op, .reg r] ∧ os = [.reg r]) ∨
         (ts = [.opcode op] ∧ os = []))

/-- Derived, from R91 and R93. The canonical form of an instruction assembles to the instruction's own bytes, so the
bytes of a canonical program execute as written. -/
def Obligations.CanonicalFormsEncodeTheInstruction : Prop :=
  ∀ (c : Config) (i : Instr), encodeAsm c (canonicalForm i) = encode c i

/-! ### The step (40_step.md) -/

/-- Derived, from R101 and R105. With no fault recorded, where the bytes at pc decode to an instruction, the step is
that instruction's execution. -/
def Obligations.StepRunsTheDecodedInstruction : Prop :=
  ∀ (s : State) (i : Instr) (rest : List Byte), s.fault = none →
    decode s.cfg (s.buffer.window s.pc.toNat 4) = .ok (i, rest) → step s = exec i s

/-- Derived, from R93, R101 and R105. Where the encoding of a well-formed instruction stands byte by byte at pc, the
step executes that instruction. -/
def Obligations.EncodedBytesAtPcAreExecuted : Prop :=
  ∀ (s : State) (i : Instr) (bs : List Byte), s.cfg.wf = true → s.fault = none → encode s.cfg i = some bs →
    (∀ k, k < bs.length → s.buffer.read (s.pc.toNat + k) = bs[k]?) → step s = exec i s

/-- Derived, from R100 and R109 and their decision D17. At or beyond the end of the buffer the step halts with
`EndOfBuffer` and changes no state, again and again until appends make the buffer longer than pc; then the next step
fetches. -/
def Obligations.EndOfBufferHaltsUntilBytesAreAppended : Prop :=
  ∀ (s t : State) (bs : List Byte), s.fault = none → s.buffer.size ≤ s.pc.toNat →
    step s = .next { s with outcome := .halted .endOfBuffer } ∧
    (appendBytes s bs = (t, true) →
      (t.buffer.size ≤ s.pc.toNat → step t = .next { t with outcome := .halted .endOfBuffer }) ∧
      (s.pc.toNat < t.buffer.size → ∃ u, step t = .next u ∧ u.outcome ≠ .halted .endOfBuffer))

/-- Derived, from R102 and its decision D14. Operand bytes that run past the end of the buffer raise `Truncated` and
change nothing else; otherwise the operand bytes are the bytes of the buffer that follow the opcode byte, in order, and
the step does not raise `Truncated`; so a 1-byte instruction never does. -/
def Obligations.TruncatedExactlyPastTheEnd : Prop :=
  ∀ (s : State) (ob : Byte), s.fault = none → s.buffer.read s.pc.toNat = some ob →
    (s.buffer.size < s.pc.toNat + (fromByte s.cfg ob).length → step s = .next (s.faultEntry .truncated ob)) ∧
    (s.pc.toNat + (fromByte s.cfg ob).length ≤ s.buffer.size →
      ∃ i, i.op = fromByte s.cfg ob ∧ step s = exec i s ∧
        ∀ k, k + 1 < (fromByte s.cfg ob).length → (operandBytes i)[k]? = s.buffer.read (s.pc.toNat + 1 + k)) ∧
    (s.pc.toNat + (fromByte s.cfg ob).length ≤ s.buffer.size →
      ∀ t, step s = .next t → t.outcome ≠ .faulted .truncated) ∧
    ((fromByte s.cfg ob).length = 1 → step s ≠ .next (s.faultEntry .truncated ob))

/-- Derived, from R105, whose step function is total. That each of its outcomes, a halt and a fault included, is a next
state of the host's form, and none a host fault or a refusal, is the model's choice and no rule of the spec: log entry 6
(DESIGN CHOICE). -/
def Obligations.EveryStepAnswersANextState : Prop :=
  ∀ s : State, ∃ t, step s = .next t

/-- R213. While a fault is recorded a step does not fetch, reports the recorded cause and changes nothing; through any
host calls without a reset the record and the rest of the engine's state stay; a reset clears it. -/
def Obligations.RecordedFaultPersistsUntilReset : Prop :=
  ∀ (s : State) (r : FaultRecord), s.fault = some r →
    step s = .next { s with outcome := .faulted r.cause } ∧
    (∀ calls : List HostCall, (∀ c ∈ calls, c ≠ .reset) →
      (hostCalls s calls).fault = some r ∧ (hostCalls s calls).pc = s.pc ∧ (hostCalls s calls).regs = s.regs ∧
      (hostCalls s calls).flag = s.flag ∧ (hostCalls s calls).rem = s.rem ∧ (hostCalls s calls).heap = s.heap) ∧
    (hostReset s).fault = none

/-- Derived, from R211 and its decisions D16 and D19. A step that raises a fault writes the record `(F, p, ob)` and
nothing else: the record's offset is pc, its byte is the opcode byte there, and every other part of the state is as it
was. -/
def Obligations.FaultsArePrecise : Prop :=
  ∀ (s t : State), s.fault = none → step s = .next t →
    (∀ f, t.outcome = .faulted f →
      ∃ ob, s.buffer.read s.pc.toNat = some ob ∧ t = s.faultEntry f ob) ∧
    (t.fault ≠ none → ∃ f, t.outcome = .faulted f)

/-- R106. Every instruction that completes returns `Continue`, jeq and jneq whether or not they jump, but for HALT,
which returns `Halted(HaltInstr)`, and ILLEGAL, which returns `Halted(IllegalInstr)`. -/
def Obligations.OnlyHaltAndIllegalEndTheRun : Prop :=
  ∀ (i : Instr) (s t : State), exec i s = .next t → (∀ f, t.outcome ≠ .faulted f) →
    (i = .halt → t.outcome = .halted .haltInstr) ∧
    (i = .illegal → t.outcome = .halted .illegalInstr) ∧
    (i ≠ .halt → i ≠ .illegal → t.outcome = .continues)

/-- Derived, from R220 and R221 (the codes and names are the spec's own, D17). A step that halts does so for the
reason of R220's table, leaves pc as the table says, and sets no fault record; a run that ends in a halt ends
normally. -/
def Obligations.HaltsAreNotFaults : Prop :=
  (∀ (s t : State) (reason : HaltReason), step s = .next t → t.outcome = .halted reason →
    s.fault = none ∧ t.fault = none ∧
    (reason = .endOfBuffer → s.buffer.size ≤ s.pc.toNat ∧ t.pc = s.pc) ∧
    (reason = .haltInstr →
      (∃ ob, s.buffer.read s.pc.toNat = some ob ∧ fromByte s.cfg ob = .halt) ∧ t.pc = s.pc + 1) ∧
    (reason = .illegalInstr →
      (∃ ob, s.buffer.read s.pc.toNat = some ob ∧ fromByte s.cfg ob = .illegal) ∧ t.pc = s.pc + 1)) ∧
  (∀ (fuel : Nat) (s t : State) (reason : HaltReason), run fuel s = some (t, .halted reason) →
    HaltsNormally fuel s reason t)

/-- Derived, from R31 and R109: a halt is the outcome of one step and is not stored. No step depends on what the last
step returned. -/
def Obligations.OutcomeIsNeverRead : Prop :=
  ∀ (s : State) (o : StepOutcome), step { s with outcome := o } = step s

/-- Derived, from R107 (D33); the fuel is the model's (log entry 16). `runOnce` is exactly one step with its outcome, and
its boolean is whether that is other than `Continue`. `run` returns the first outcome of a step other than `Continue`:
where it answers, there is a chain of fewer steps than the fuel, each but the last with the outcome `Continue`, the last
with the outcome returned and the state after it; and such a chain makes `run` answer so. More fuel does not change what
it returns. -/
def Obligations.RunReturnsTheFirstStop : Prop :=
  (∀ (s t : State) (o : StepOutcome), runOnce s = some (t, o) ↔ step s = .next t ∧ o = t.outcome) ∧
  (∀ o : StepOutcome, o.stops = true ↔ o ≠ .continues) ∧
  (∀ (fuel : Nat) (s t : State) (o : StepOutcome), run fuel s = some (t, o) →
    o ≠ .continues ∧ t.outcome = o ∧ (∀ more, run (fuel + more) s = some (t, o)) ∧
    ∃ k, k < fuel ∧ run k s = none ∧ run (k + 1) s = some (t, o) ∧
      ∃ c : Nat → State, c 0 = s ∧
        (∀ j, j < k → step (c j) = .next (c (j + 1)) ∧ (c (j + 1)).outcome = .continues) ∧ step (c k) = .next t) ∧
  (∀ (fuel k : Nat) (c : Nat → State) (t : State), k < fuel →
    (∀ j, j < k → step (c j) = .next (c (j + 1)) ∧ (c (j + 1)).outcome = .continues) →
    step (c k) = .next t → t.outcome ≠ .continues → run fuel (c 0) = some (t, t.outcome))

/-! ### The order of checks (40_step.md R103) -/

/-- Derived, from R20 (D7), R66 and check 2 of R103 (D18). A register field of 32 or more, a destination's like a
source's, raises `BadRegister` before anything is read, in every instruction that has register fields. -/
def Obligations.BadRegisterComesBeforeReads : Prop :=
  ∀ (s : State) (i : Instr) (ob : Byte), s.buffer.read s.pc.toNat = some ob →
    (∃ f ∈ i.regFields, 32 ≤ f.toNat) → exec i s = .next (s.faultEntry .badRegister ob)

/-- Derived, from R21 and R26 (D6), R177 (D26) and check 3 of R103 (D18). With every register field below 32, an
unwritten register that the instruction reads, or the unwritten flag where it reads the flag, raises `UnwrittenRead`,
before the instruction's own checks and whether or not a conditional jump is taken. -/
def Obligations.UnwrittenReadComesBeforeOwnChecks : Prop :=
  ∀ (s : State) (i : Instr) (ob : Byte), s.buffer.read s.pc.toNat = some ob →
    s.cfg.resetPolicy = .unwritten → (∀ f ∈ i.regFields, f.toNat < 32) →
    ((∃ r, regByte r ∈ i.readFields ∧ (s.reg r).written = false) ∨
      ((i.op = .jeq ∨ i.op = .jneq) ∧ s.flag.written = false)) →
    exec i s = .next (s.faultEntry .unwrittenRead ob)

/-- Derived, from R21 (D6) and R241. Under the `Zero` policy no step raises `UnwrittenRead`; under either policy no
step makes a written register, flag or remainder unwritten again. -/
def Obligations.WrittenCellsStayWritten : Prop :=
  ∀ (s t : State), s.fault = none → step s = .next t →
    (s.cfg.resetPolicy = .zero → t.outcome ≠ .faulted .unwrittenRead) ∧
    (∀ i, (s.reg i).written = true → (t.reg i).written = true) ∧
    (s.flag.written = true → t.flag.written = true) ∧ (s.rem.written = true → t.rem.written = true)

/-! ### Results: each instruction completes (41_load.md to 45_control_heap.md) -/

/-- Derived, from the pseudocode of R120 and R67: load completes from every state, writes the zero-extended immediate,
never a negative value, and nothing else but pc. -/
def Obligations.LoadWritesTheZeroExtendedImmediate : Prop :=
  ∀ (s : State) (d : RegId) (imm : Imm16), ∃ v : Word, v.toInt = imm.toNat ∧
    exec (.load (regByte d) imm) s = .next
      { s with
        regs := s.regs.set d.val { value := v, written := true }
        pc := s.pc + 4
        outcome := .continues }

/-- Derived, from the pseudocode of R130, R131, R132 and the law of R134: with both sources readable, add, sub and mul
complete and write the 32-bit value congruent to the exact result modulo 2^32, whichever registers coincide. -/
def Obligations.AddSubMulWriteTheWrappedResult : Prop :=
  ∀ (s : State) (a b d : RegId), s.RegReadable a → s.RegReadable b →
    ∀ p ∈ [(Instr.add (regByte a) (regByte b) (regByte d), (s.reg a).value.toInt + (s.reg b).value.toInt),
           (.sub (regByte a) (regByte b) (regByte d), (s.reg a).value.toInt - (s.reg b).value.toInt),
           (.mul (regByte a) (regByte b) (regByte d), (s.reg a).value.toInt * (s.reg b).value.toInt)],
      ∃ v : Word, (∃ k : Int, p.2 = v.toInt + k * 2 ^ 32) ∧
        exec p.1 s = .next
          { s with
            regs := s.regs.set d.val { value := v, written := true }
            pc := s.pc + 4
            outcome := .continues }

/-- Derived, from the pseudocode of R133 and the law of R135 (the spec's own decision D10 for operands of mixed sign):
with both sources readable, a divisor that is not 0 and not the case -2^31 / -1, div completes; `x[d]` gets the
quotient rounded toward zero and `rem` the remainder, with the sign of the dividend, stored modulo 2^32. -/
def Obligations.DivWritesQuotientAndRemainder : Prop :=
  ∀ (s : State) (a b d : RegId), s.RegReadable a → s.RegReadable b →
    (s.reg b).value.toInt ≠ 0 → ¬ ((s.reg a).value.toInt = -2 ^ 31 ∧ (s.reg b).value.toInt = -1) →
    ∃ (q r : Int) (vq vr : Word),
      (s.reg a).value.toInt = q * (s.reg b).value.toInt + r ∧ |r| < |(s.reg b).value.toInt| ∧
      (r = 0 ∨ (0 < r ↔ 0 < (s.reg a).value.toInt)) ∧
      vq.toInt = q ∧ (vr.toNat : Int) = (if r < 0 then r + 2 ^ 32 else r) ∧
      exec (.div (regByte a) (regByte b) (regByte d)) s = .next
        { s with
          regs := s.regs.set d.val { value := vq, written := true }
          rem := { value := vr, written := true }
          pc := s.pc + 4
          outcome := .continues }

/-- Derived, from the exceptions of R133 (D8, D9): with the fields and the reads in order, a zero divisor raises
`DivideByZero` and -2^31 / -1 raises `DivideOverflow`; neither writes `x[d]` or `rem`. -/
def Obligations.DivFaultsOnZeroAndOverflow : Prop :=
  ∀ (s : State) (a b d : RegId) (ob : Byte), s.buffer.read s.pc.toNat = some ob →
    s.RegReadable a → s.RegReadable b →
    ((s.reg b).value.toInt = 0 →
      exec (.div (regByte a) (regByte b) (regByte d)) s = .next (s.faultEntry .divideByZero ob)) ∧
    ((s.reg a).value.toInt = -2 ^ 31 → (s.reg b).value.toInt = -1 →
      exec (.div (regByte a) (regByte b) (regByte d)) s = .next (s.faultEntry .divideOverflow ob))

/-- Derived, from the pseudocode of R150 (D12): with its register readable, jmp completes, for every target value. -/
def Obligations.JmpGoesToTheRegister : Prop :=
  ∀ (s : State) (t : RegId), s.RegReadable t → ∃ v : Word, (v.toNat : Int) = (s.reg t).value.toInt % 2 ^ 32 ∧
    exec (.jmp (regByte t)) s = .next { s with pc := v, outcome := .continues }

/-- Derived, from R25, R151 and R152 (D13): with the register readable, jmpf and jmpb complete at the exact target,
counted from the byte after the jump, where it is not negative; in a state that meets the invariant and holds the
jump's two bytes the target always fits. A negative target raises `PcUnderflow`. -/
def Obligations.RelativeJumpsCountFromTheNextByte : Prop :=
  ∀ (s : State) (t : RegId) (ob : Byte), s.Inv → s.RegReadable t → s.pc.toNat + 2 ≤ s.buffer.size →
    s.buffer.read s.pc.toNat = some ob →
    ∀ p ∈ [(Instr.jmpf (regByte t), (s.pc.toNat : Int) + 2 + (s.reg t).value.toInt),
           (.jmpb (regByte t), (s.pc.toNat : Int) + 2 - (s.reg t).value.toInt)],
      (0 ≤ p.2 → ∃ v : Word, (v.toNat : Int) = p.2 ∧
        exec p.1 s = .next { s with pc := v, outcome := .continues }) ∧
      (p.2 < 0 → exec p.1 s = .next (s.faultEntry .pcUnderflow ob))

/-- Derived, from R170 to R176 (D24, D25): with both registers readable the six comparisons complete, write the signed
relation to the flag, make it written, and write nothing else but pc. -/
def Obligations.ComparisonsWriteTheSignedRelation : Prop :=
  ∀ (s : State) (a b : RegId), s.RegReadable a → s.RegReadable b →
    ∀ p ∈ [(Instr.eq (regByte a) (regByte b), decide ((s.reg a).value.toInt = (s.reg b).value.toInt)),
           (.neq (regByte a) (regByte b), decide ((s.reg a).value.toInt ≠ (s.reg b).value.toInt)),
           (.gt (regByte a) (regByte b), decide ((s.reg a).value.toInt > (s.reg b).value.toInt)),
           (.lt (regByte a) (regByte b), decide ((s.reg a).value.toInt < (s.reg b).value.toInt)),
           (.gtq (regByte a) (regByte b), decide ((s.reg a).value.toInt ≥ (s.reg b).value.toInt)),
           (.ltq (regByte a) (regByte b), decide ((s.reg a).value.toInt ≤ (s.reg b).value.toInt))],
      exec p.1 s = .next
        { s with
          flag := { value := p.2, written := true }
          pc := s.pc + 3
          outcome := .continues }

/-- Derived, from the pseudocode of R177 and R178 (D5, D12, D26): with the register and the flag readable, jeq and
jneq complete; the jump is taken exactly when the flag has the polarity, and not taken pc advances by 2. -/
def Obligations.ConditionalJumpsFollowTheFlag : Prop :=
  ∀ (s : State) (t : RegId), s.RegReadable t → s.FlagReadable →
    exec (.jeq (regByte t)) s = .next
      { s with pc := if s.flag.value = true then (s.reg t).value else s.pc + 2, outcome := .continues } ∧
    exec (.jneq (regByte t)) s = .next
      { s with pc := if s.flag.value = false then (s.reg t).value else s.pc + 2, outcome := .continues }

/-- Derived, from the pseudocode of R190, R191 and R192: halt, illegal and nop complete from every state, advance pc
by 1 and change nothing else; the first two report their halt reasons. -/
def Obligations.HaltIllegalAndNopAdvanceByOne : Prop :=
  ∀ s : State,
    exec .halt s = .next { s with pc := s.pc + 1, outcome := .halted .haltInstr } ∧
    exec .illegal s = .next { s with pc := s.pc + 1, outcome := .halted .illegalInstr } ∧
    exec .nop s = .next { s with pc := s.pc + 1, outcome := .continues }

/-- Derived, from the pseudocode of R193 (D15) and R44: with its register readable, a count that is not negative and a
heap that stays within `HEAP_MAX`, aloc completes; the heap is longer by exactly the count, its earlier bytes read as
before and the new ones are 0, and nothing else changes but pc. -/
def Obligations.AlocGrowsTheHeapByZeroBytes : Prop :=
  ∀ (s : State) (t : RegId), s.heap.wf = true → s.RegReadable t → 0 ≤ (s.reg t).value.toInt →
    (s.heap.size : Int) + (s.reg t).value.toInt ≤ s.cfg.heapMax →
    ∃ h : Memory, (h.size : Int) = s.heap.size + (s.reg t).value.toInt ∧
      (∀ a, a < s.heap.size → h.read a = s.heap.read a) ∧
      (∀ a, s.heap.size ≤ a → a < h.size → h.read a = some 0) ∧
      exec (.aloc (regByte t)) s = .next { s with heap := h, pc := s.pc + 2, outcome := .continues }

/-- Derived, from the exceptions of R193 (D15): a negative count raises `AllocNegative`, and a count that would take
the heap past `HEAP_MAX` raises `HeapExhausted`; the heap stays as it was. -/
def Obligations.AlocFaultsOnNegativeAndExhausted : Prop :=
  ∀ (s : State) (t : RegId) (ob : Byte), s.buffer.read s.pc.toNat = some ob → s.RegReadable t →
    ((s.reg t).value.toInt < 0 → exec (.aloc (regByte t)) s = .next (s.faultEntry .allocNegative ob)) ∧
    (0 ≤ (s.reg t).value.toInt → (s.cfg.heapMax : Int) < s.heap.size + (s.reg t).value.toInt →
      exec (.aloc (regByte t)) s = .next (s.faultEntry .heapExhausted ob))

/-! ### Frames: what each instruction leaves unchanged -/

/-- Derived, from R22, R26, R27, R28, R29 and R211. Load, add, sub, mul and div leave every register but the
destination, the flag, both byte stores and the configuration unchanged; all but div leave `rem` unchanged; the fault
record changes only where a fault is raised, and then the destination and `rem` are unchanged too. -/
def Obligations.RegisterWritersFrame : Prop :=
  ∀ (s t : State) (a b d : Byte) (imm : Imm16),
    ∀ i ∈ [Instr.load d imm, .add a b d, .sub a b d, .mul a b d, .div a b d], exec i s = .next t →
      (∀ r, regByte r ≠ d → t.reg r = s.reg r) ∧ t.flag = s.flag ∧ s.SameStores t ∧ t.cfg = s.cfg ∧
      (i ≠ .div a b d → t.rem = s.rem) ∧
      (t.fault = s.fault ∨ ∃ f, t.outcome = .faulted f ∧ t.regs = s.regs ∧ t.rem = s.rem ∧ t.pc = s.pc)

/-- Derived, from R22, R26, R170 and R211. The comparisons leave every register, `rem`, both byte stores and the
configuration unchanged; the fault record changes only where a fault is raised, and then the flag is unchanged. -/
def Obligations.ComparisonsFrame : Prop :=
  ∀ (s t : State) (a b : Byte),
    ∀ i ∈ [Instr.eq a b, .neq a b, .gt a b, .lt a b, .gtq a b, .ltq a b], exec i s = .next t →
      (∀ r, t.reg r = s.reg r) ∧ t.rem = s.rem ∧ s.SameStores t ∧ t.cfg = s.cfg ∧
      (t.fault = s.fault ∨ ∃ f, t.outcome = .faulted f ∧ t.flag = s.flag ∧ t.pc = s.pc)

/-- Derived, from R22, R153, R177, R190 to R192 and R211. The jumps, halt, illegal and nop leave every register, the
flag, `rem`, both byte stores and the configuration unchanged; no jump writes a link register. -/
def Obligations.JumpsAndControlFrame : Prop :=
  ∀ (s t : State) (r : Byte),
    ∀ i ∈ [Instr.jmp r, .jmpf r, .jmpb r, .jeq r, .jneq r, .halt, .illegal, .nop], exec i s = .next t →
      (∀ j, t.reg j = s.reg j) ∧ t.flag = s.flag ∧ t.rem = s.rem ∧ s.SameStores t ∧ t.cfg = s.cfg ∧
      (t.fault = s.fault ∨ ∃ f, t.outcome = .faulted f ∧ t.pc = s.pc)

/-- Derived, from R22, R44, R193 and R211. Aloc leaves every register, the flag, `rem`, the buffer and the
configuration unchanged, and every byte of the heap below its old length; where a fault is raised the heap is
unchanged. -/
def Obligations.AlocFrame : Prop :=
  ∀ (s t : State) (r : Byte), exec (.aloc r) s = .next t →
    (∀ j, t.reg j = s.reg j) ∧ t.flag = s.flag ∧ t.rem = s.rem ∧ t.cfg = s.cfg ∧
    t.buffer.size = s.buffer.size ∧ (∀ a, t.buffer.read a = s.buffer.read a) ∧
    (∀ a, a < s.heap.size → t.heap.read a = s.heap.read a) ∧
    (t.fault = s.fault ∨ ∃ f, t.outcome = .faulted f ∧ t.pc = s.pc ∧ s.SameStores t)

/-! ### Rules of the whole machine (10_state.md, 20_memory.md) -/

/-- Derived, from R24, R25 and R104. How each outcome of a step leaves pc, exactly and with no wrap, from every state
that meets the invariant: the end of the buffer and a fault leave it, a completed instruction leaves it where its row
of the table says. -/
def Obligations.PcAfterEveryOutcome : Prop :=
  ∀ (s t : State), s.Inv → s.fault = none → step s = .next t →
    (s.buffer.size ≤ s.pc.toNat → t.pc = s.pc) ∧
    (∀ f, t.outcome = .faulted f → t.pc = s.pc) ∧
    (∀ i rest, decode s.cfg (s.buffer.window s.pc.toNat 4) = .ok (i, rest) → (∀ f, t.outcome ≠ .faulted f) →
      (i.op ∈ [Op.load, .add, .sub, .mul, .div] → t.pc.toNat = s.pc.toNat + 4) ∧
      (i.op ∈ [Op.eq, .neq, .gt, .lt, .gtq, .ltq] → t.pc.toNat = s.pc.toNat + 3) ∧
      (i.op = .aloc → t.pc.toNat = s.pc.toNat + 2) ∧
      (i.op ∈ [Op.halt, .illegal, .nop] → t.pc.toNat = s.pc.toNat + 1) ∧
      (∀ r, i = .jmp (regByte r) → (t.pc.toNat : Int) = (s.reg r).value.toInt % 2 ^ 32) ∧
      (∀ r, i = .jmpf (regByte r) → (t.pc.toNat : Int) = s.pc.toNat + 2 + (s.reg r).value.toInt) ∧
      (∀ r, i = .jmpb (regByte r) → (t.pc.toNat : Int) = s.pc.toNat + 2 - (s.reg r).value.toInt) ∧
      (∀ r taken, (i = .jeq (regByte r) ∧ taken = s.flag.value) ∨ (i = .jneq (regByte r) ∧ taken = !s.flag.value) →
        (taken = true → (t.pc.toNat : Int) = (s.reg r).value.toInt % 2 ^ 32) ∧
        (taken = false → t.pc.toNat = s.pc.toNat + 2)))

/-- Derived, from R26 and R27. Only a completed comparison changes the flag, and only a completed div changes `rem`:
where a step changes one of them, no fault was recorded before it or is after it, the step's outcome is `Continue`, and
the bytes at pc decode to such an instruction. -/
def Obligations.OnlyComparisonsWriteFlagOnlyDivWritesRem : Prop :=
  ∀ (s t : State), step s = .next t →
    (t.flag ≠ s.flag → s.fault = none ∧ t.fault = none ∧ t.outcome = .continues ∧
      ∃ i rest, decode s.cfg (s.buffer.window s.pc.toNat 4) = .ok (i, rest) ∧
        i.op ∈ [Op.eq, .neq, .gt, .lt, .gtq, .ltq]) ∧
    (t.rem ≠ s.rem → s.fault = none ∧ t.fault = none ∧ t.outcome = .continues ∧
      ∃ i rest, decode s.cfg (s.buffer.window s.pc.toNat 4) = .ok (i, rest) ∧ i.op = .div)

/-- Derived, from R28, R29 and R45. No step writes the instruction buffer; only aloc changes the heap, which never
shrinks and whose earlier bytes stay. -/
def Obligations.HeapOnlyGrowsAndBufferIsReadOnly : Prop :=
  ∀ (s t : State), step s = .next t →
    t.buffer = s.buffer ∧ s.heap.size ≤ t.heap.size ∧
    (∀ a, a < s.heap.size → t.heap.read a = s.heap.read a) ∧
    (t.heap ≠ s.heap → ∃ i rest, decode s.cfg (s.buffer.window s.pc.toNat 4) = .ok (i, rest) ∧ i.op = .aloc)

/-- Derived, from R44 (its last sentence is the spec's own derivation). `HeapGrow(n)` appends `n` zero bytes and
leaves the earlier bytes; only aloc calls it, within `HEAP_MAX`; and every byte of the heap is 0 at all times, through
any host calls from any reset. -/
def Obligations.EveryHeapByteIsZero : Prop :=
  (∀ (m : Memory) (n : Nat), m.wf = true →
    (m.growZero n).size = m.size + n ∧ (∀ a, a < m.size → (m.growZero n).read a = m.read a) ∧
    (∀ a, m.size ≤ a → a < m.size + n → (m.growZero n).read a = some 0)) ∧
  (∀ (i : Instr) (s t : State), exec i s = .next t → t.heap ≠ s.heap →
    i.op = .aloc ∧ ∃ n, t.heap = s.heap.growZero n ∧ s.heap.size + n ≤ s.cfg.heapMax) ∧
  (∀ (s : State) (calls : List HostCall) (a : Nat) (v : Byte),
    (hostCalls (hostReset s) calls).heap.read a = some v → v = 0)

/-- Derived, from R41 and its decision D11. The buffer's length stays within `MAX_PROGRAM_BYTES`: an append is refused
as a whole, with no change, exactly when the new length would exceed it; an accepted append puts the bytes after the
ones that are there. -/
def Obligations.AppendIsWholeOrRefused : Prop :=
  (∀ (s : State) (bs : List Byte), s.buffer.wf = true →
    (s.cfg.maxProgramBytes < s.buffer.size + bs.length → appendBytes s bs = (s, false)) ∧
    (s.buffer.size + bs.length ≤ s.cfg.maxProgramBytes →
      ∃ m : Memory, appendBytes s bs = ({ s with buffer := m }, true) ∧ m.size = s.buffer.size + bs.length ∧
        (∀ a, a < s.buffer.size → m.read a = s.buffer.read a) ∧
        (∀ k, k < bs.length → m.read (s.buffer.size + k) = bs[k]?))) ∧
  (∀ (s : State) (calls : List HostCall), s.cfg.wf = true →
    (hostCalls (hostReset s) calls).buffer.size ≤ s.cfg.maxProgramBytes ∧ s.cfg.maxProgramBytes ≤ 2 ^ 31 - 1)

/-- Derived, from R50 and its decision D34. A byte, once fetchable, keeps its value until reset: through any host
calls but reset, steps among them, a byte of the buffer reads as it did; and what an accepted append puts there is
what the next fetch reads. -/
def Obligations.FetchableBytesKeepTheirValue : Prop :=
  (∀ (s : State) (calls : List HostCall) (a : Nat) (b : Byte), (∀ c ∈ calls, c ≠ .reset) →
    s.buffer.read a = some b → (hostCalls s calls).buffer.read a = some b) ∧
  (∀ (s t : State) (bs : List Byte) (i : Instr), s.buffer.wf = true → s.fault = none → s.pc.toNat = s.buffer.size →
    appendBytes s bs = (t, true) → decode s.cfg bs = .ok (i, []) → step t = exec i t)

/-! ### Invariants and relations between runs -/

/-- Derived, from R8, R21, R41, R44 and R211. Every step from a state that meets the invariant leads to one that
does. -/
def Obligations.StepKeepsTheInvariant : Prop :=
  ∀ (s t : State), s.Inv → step s = .next t → t.Inv

/-- Derived, from R230 and R48. Every sequence of host calls, from any state that meets the invariant, leads to one
that does. -/
def Obligations.HostCallsKeepTheInvariant : Prop :=
  ∀ (s : State) (calls : List HostCall), s.Inv → (hostCalls s calls).Inv

/-- Derived, from R21, R27 and R230. The value the model keeps behind an unwritten mark is never read (log entry 2):
two states of one configuration that the snapshot shows alike step alike, to states that it shows alike, with one
outcome. -/
def Obligations.HiddenValuesNeverShow : Prop :=
  ∀ (s t s' : State), s.cfg = t.cfg → snapshot s = snapshot t → step s = .next s' →
    ∃ t', step t = .next t' ∧ s'.outcome = t'.outcome ∧ s'.cfg = t'.cfg ∧ snapshot s' = snapshot t'

/-- Derived, from R241. A step under `Unwritten` that raises no `UnwrittenRead` is a step under `Zero`, from the twin of
the state, with 0 and false where a cell is unwritten, to the twin of the next state; so is every step of a sequence of
steps of any length, whether or not it ever stops; and a run that stops returns the same outcome. -/
def Obligations.ZeroPolicyRunsFollowUnwrittenRuns : Prop :=
  (∀ s t : State, s.cfg.resetPolicy = .unwritten → step s = .next t → t.outcome ≠ .faulted .unwrittenRead →
    step s.zeroTwin = .next t.zeroTwin) ∧
  (∀ (n : Nat) (c : Nat → State), (c 0).cfg.resetPolicy = .unwritten →
    (∀ j, j < n → step (c j) = .next (c (j + 1)) ∧ (c (j + 1)).outcome ≠ .faulted .unwrittenRead) →
    ∀ j, j < n → step (c j).zeroTwin = .next (c (j + 1)).zeroTwin) ∧
  (∀ (fuel : Nat) (s t : State) (o : StepOutcome), s.cfg.resetPolicy = .unwritten →
    run fuel s = some (t, o) → o ≠ .faulted .unwrittenRead → run fuel s.zeroTwin = some (t.zeroTwin, o))

/-! ### Sanity -/

/-- Derived, from R212 and R220: the codes of the fault causes and of the halt reasons. -/
def Obligations.FaultAndHaltCodes : Prop :=
  [Fault.truncated, .badRegister, .unwrittenRead, .divideByZero, .divideOverflow, .pcUnderflow, .allocNegative,
    .heapExhausted].map Fault.code = [1, 2, 3, 4, 5, 6, 7, 8] ∧
  [HaltReason.endOfBuffer, .haltInstr, .illegalInstr].map HaltReason.code = [0, 1, 2]

/-- Derived, from the example of R251: in `00 05 00 07` a jump to offset 1 executes `05` as HALT, in every state of
the reference opcode map whose buffer begins so. -/
def Obligations.JumpIntoAnOperandExecutesIt : Prop :=
  ∀ (s : State), s.fault = none → s.cfg.opcodeMap = defaultOpcodeMap → s.pc = 1 →
    [s.buffer.read 0, s.buffer.read 1, s.buffer.read 2, s.buffer.read 3] = [some 0x00, some 0x05, some 0x00, some 0x07] →
    step s = .next { s with pc := 2, outcome := .halted .haltInstr }
end

