-- ==== Sys2Proof/Laws/Alu.lean ====
section
/-! SUPPORT. The laws of 32-bit integers, and one spec lemma for each own check of an instruction: the divider, the
relative target and the allocation count. -/

namespace Sys2Proof.Machine

/-! ### Integers of 32 bits -/

theorem s32_bounds (w : Word) : -2147483648 ≤ s32 w ∧ s32 w ≤ 2147483647 := by
  have h1 := BitVec.le_toInt w
  have h2 := BitVec.toInt_lt (x := w)
  norm_num at h1 h2
  exact ⟨h1, by unfold s32; omega⟩

theorem u32_toNat (v : Int) : ((u32 v).toNat : Int) = v % 2 ^ 32 := by
  simp [BitVec.toNat_ofInt]
  omega

theorem u32_toNat_of_lt {v : Int} (h0 : 0 ≤ v) (h1 : v < 2 ^ 32) : ((u32 v).toNat : Int) = v := by
  rw [u32_toNat]
  omega

theorem u32_toInt_of_mem {v : Int} (h1 : -2 ^ 31 ≤ v) (h2 : v < 2 ^ 31) : (u32 v).toInt = v := by
  simp only [BitVec.toInt_ofInt]
  rw [Int.bmod_eq_of_le] <;> norm_num <;> omega

/-- `wrap32` changes an integer by a multiple of 2^32 (42_arithmetic.md R134). -/
theorem wrap32_congr (v : Int) : ∃ k : Int, v = (wrap32 v).toInt + k * 2 ^ 32 := by
  refine ⟨v.bdiv (2 ^ 32), ?_⟩
  have := Int.bdiv_add_bmod v (2 ^ 32)
  simp only [BitVec.toInt_ofInt]
  push_cast at this ⊢
  omega

/-- The unsigned reading of a register is its signed reading modulo 2^32. -/
theorem toNat_eq_emod (w : Word) : (w.toNat : Int) = w.toInt % 2 ^ 32 := by
  have := w.isLt
  rw [BitVec.toInt_eq_toNat_cond]
  split <;> omega

/-- The zero-extended immediate reads as itself (30_encoding.md R67). -/
theorem setWidth_toInt (imm : Imm16) : (imm.setWidth 32 : Word).toInt = imm.toNat := by
  have := imm.isLt
  rw [BitVec.toInt_eq_toNat_cond, BitVec.toNat_setWidth]
  omega

/-! ### The divider (R133) -/

theorem aluDiv_zero {x y : Word} (h : s32 y = 0) : aluDiv x y = .error .divideByZero := by
  simp [aluDiv, h]

theorem aluDiv_overflow {x y : Word} (h1 : s32 x = -2 ^ 31) (h2 : s32 y = -1) :
    aluDiv x y = .error .divideOverflow := by
  simp [aluDiv, h1, h2]

theorem aluDiv_ok {x y : Word} (h1 : s32 y ≠ 0) (h2 : ¬ (s32 x = -2 ^ 31 ∧ s32 y = -1)) :
    aluDiv x y = .ok (u32 ((s32 x).tdiv (s32 y)), u32 ((s32 x).tmod (s32 y))) := by
  have : s32 x - (s32 x).tdiv (s32 y) * s32 y = (s32 x).tmod (s32 y) := by
    have := Int.mul_tdiv_add_tmod (s32 x) (s32 y)
    rw [Int.mul_comm] at this
    omega
  rw [aluDiv, if_neg h1, if_neg h2, this]

/-! ### The relative target (R151) -/

theorem relativeTarget_ok {v : Int} (h : 0 ≤ v) : relativeTarget v = .ok (u32 v) := by
  rw [relativeTarget, if_neg (by omega)]

theorem relativeTarget_error {v : Int} (h : v < 0) : relativeTarget v = .error .pcUnderflow := by
  rw [relativeTarget, if_pos h]

/-! ### The allocation count (R193) -/

/-- The own faults of div. -/
theorem aluDiv_faults {x y : Word} {f : Fault} (h : aluDiv x y = .error f) :
    f = .divideByZero ∨ f = .divideOverflow := by
  unfold aluDiv at h
  split at h
  · cases h; exact .inl rfl
  · split at h <;> cases h
    exact .inr rfl

/-- The own fault of the relative jumps. -/
theorem relativeTarget_faults {v : Int} {f : Fault} (h : relativeTarget v = .error f) : f = .pcUnderflow := by
  unfold relativeTarget at h
  split at h <;> cases h
  rfl

/-- The own faults of aloc. -/
theorem State.allocCount_faults {s : State} {x : Word} {f : Fault} (h : s.allocCount x = .error f) :
    f = .allocNegative ∨ f = .heapExhausted := by
  unfold State.allocCount at h
  split at h
  · cases h; exact .inl rfl
  · split at h <;> cases h
    exact .inr rfl

theorem State.allocCount_negative {s : State} {x : Word} (h : s32 x < 0) :
    s.allocCount x = .error .allocNegative := by
  rw [State.allocCount, if_pos h]

theorem State.allocCount_exhausted {s : State} {x : Word} (h0 : 0 ≤ s32 x)
    (h : (s.cfg.heapMax : Int) < s.heap.size + s32 x) : s.allocCount x = .error .heapExhausted := by
  rw [State.allocCount, if_neg (by omega), if_pos (by omega)]

theorem State.allocCount_fits {s : State} {x : Word} (h0 : 0 ≤ s32 x)
    (h : (s.heap.size : Int) + s32 x ≤ s.cfg.heapMax) : s.allocCount x = .ok (s32 x).toNat := by
  rw [State.allocCount, if_neg (by omega), if_neg (by omega)]

/-- What a completed allocation count says. -/
theorem State.allocCount_ok {s : State} {x : Word} {n : Nat} (h : s.allocCount x = .ok n) :
    (n : Int) = s32 x ∧ s.heap.size + n ≤ s.cfg.heapMax := by
  by_cases h0 : s32 x < 0
  · rw [State.allocCount_negative h0] at h
    cases h
  · by_cases h1 : (s.cfg.heapMax : Int) < s.heap.size + s32 x
    · rw [State.allocCount_exhausted (by omega) h1] at h
      cases h
    · rw [State.allocCount_fits (by omega) (by omega)] at h
      cases h
      omega

end Sys2Proof.Machine
end

