-- ==== Sys2Proof/Laws/Decode.lean ====
section
/-! SUPPORT. The laws of the decoder and the encoder. -/

namespace Sys2Proof

/-! ### Register bytes and the immediate -/

theorem regByte_toNat (i : RegId) : (regByte i).toNat = i.val := by
  simp [regByte]; omega

theorem regByte_lt (i : RegId) : (regByte i).toNat < 32 := by
  rw [regByte_toNat]; exact i.isLt

theorem regByte_injective {i j : RegId} (h : regByte i = regByte j) : i = j := by
  have := congrArg BitVec.toNat h
  rw [regByte_toNat, regByte_toNat] at this
  exact Fin.ext this

/-- Every field byte below 32 names a register. -/
theorem exists_regByte {f : Byte} (h : f.toNat < 32) : ∃ i : RegId, f = regByte i :=
  ⟨⟨f.toNat, h⟩, by simp [regByte]⟩

/-- `imm16 = byte2 * 256 + byte3` (30_encoding.md R67). -/
theorem immOfBytes_toNat (hi lo : Byte) : (immOfBytes hi lo).toNat = hi.toNat * 256 + lo.toNat := by
  unfold immOfBytes
  rw [BitVec.toNat_append, ← Nat.shiftLeft_add_eq_or_of_lt lo.isLt, Nat.shiftLeft_eq]

theorem immHigh_toNat (imm : Imm16) : (immHigh imm).toNat = imm.toNat / 256 := by
  have := imm.isLt
  simp only [immHigh, BitVec.extractLsb'_toNat, Nat.shiftRight_eq_div_pow]
  omega

theorem immLow_toNat (imm : Imm16) : (immLow imm).toNat = imm.toNat % 256 := by
  simp only [immLow, BitVec.extractLsb'_toNat, Nat.shiftRight_zero]

theorem immOfBytes_high_low (imm : Imm16) : immOfBytes (immHigh imm) (immLow imm) = imm := by
  apply BitVec.eq_of_toNat_eq
  rw [immOfBytes_toNat, immHigh_toNat, immLow_toNat]
  omega

theorem immHigh_immOfBytes (hi lo : Byte) : immHigh (immOfBytes hi lo) = hi := by
  apply BitVec.eq_of_toNat_eq
  rw [immHigh_toNat, immOfBytes_toNat]
  omega

theorem immLow_immOfBytes (hi lo : Byte) : immLow (immOfBytes hi lo) = lo := by
  apply BitVec.eq_of_toNat_eq
  rw [immLow_toNat, immOfBytes_toNat]
  omega

/-! ### Operand bytes -/

/-- The operand bytes of an instruction number one less than its operation's length (30_encoding.md R65). -/
theorem operandBytes_length (i : Instr) : (operandBytes i).length + 1 = i.op.length := by
  cases i <;> rfl

/-- The decoder of operands reads back what the encoder writes. -/
theorem decodeOperands_operandBytes (i : Instr) (rest : List Byte) :
    decodeOperands i.op (operandBytes i ++ rest) = some (i, rest) := by
  cases i <;>
    simp [decodeOperands, Instr.op, operandBytes, takeR, takeRR, takeRRR, takeRI, immOfBytes_high_low]

/-- Everything the decoder of operands can answer: an instruction of that operation, whose operand bytes are the bytes
consumed. -/
theorem decodeOperands_some {op : Op} {bs : List Byte} {i : Instr} {rest : List Byte}
    (h : decodeOperands op bs = some (i, rest)) : i.op = op ∧ bs = operandBytes i ++ rest := by
  cases op <;> simp only [decodeOperands] at h
  case load =>
    match bs, h with
    | d :: hi :: lo :: r, h =>
      simp only [takeRI, Option.some.injEq, Prod.mk.injEq] at h
      obtain ⟨rfl, rfl⟩ := h
      simp [Instr.op, operandBytes, immHigh_immOfBytes, immLow_immOfBytes]
  case add | sub | mul | div =>
    match bs, h with
    | a :: b :: d :: r, h =>
      simp only [takeRRR, Option.some.injEq, Prod.mk.injEq] at h
      obtain ⟨rfl, rfl⟩ := h
      simp [Instr.op, operandBytes]
  case eq | neq | gt | lt | gtq | ltq =>
    match bs, h with
    | a :: b :: r, h =>
      simp only [takeRR, Option.some.injEq, Prod.mk.injEq] at h
      obtain ⟨rfl, rfl⟩ := h
      simp [Instr.op, operandBytes]
  case jmp | jmpf | jmpb | jeq | jneq | aloc =>
    match bs, h with
    | t :: r, h =>
      simp only [takeR, Option.some.injEq, Prod.mk.injEq] at h
      obtain ⟨rfl, rfl⟩ := h
      simp [Instr.op, operandBytes]
  case halt | nop | illegal =>
    simp only [Option.some.injEq, Prod.mk.injEq] at h
    obtain ⟨rfl, rfl⟩ := h
    simp [Instr.op, operandBytes]

/-- The decoder of operands answers whenever there are enough bytes. -/
theorem decodeOperands_isSome {op : Op} {bs : List Byte} (h : op.length ≤ bs.length + 1) :
    ∃ i rest, decodeOperands op bs = some (i, rest) := by
  cases op <;> simp only [Op.length, Op.format, Format.length] at h
  case load =>
    match bs, h with
    | d :: hi :: lo :: r, _ => exact ⟨_, _, rfl⟩
  case add | sub | mul | div =>
    match bs, h with
    | a :: b :: d :: r, _ => exact ⟨_, _, rfl⟩
  case eq | neq | gt | lt | gtq | ltq =>
    match bs, h with
    | a :: b :: r, _ => exact ⟨_, _, rfl⟩
  case jmp | jmpf | jmpb | jeq | jneq | aloc =>
    match bs, h with
    | t :: r, _ => exact ⟨_, _, rfl⟩
  case halt | nop | illegal => exact ⟨_, _, rfl⟩

/-- Everything the decoder can answer. -/
theorem decode_ok {c : Config} {bs : List Byte} {i : Instr} {rest : List Byte}
    (h : decode c bs = .ok (i, rest)) :
    ∃ ob, fromByte c ob = i.op ∧ bs = ob :: (operandBytes i ++ rest) := by
  cases bs with
  | nil => simp [decode] at h
  | cons ob bs =>
    simp only [decode] at h
    cases hd : decodeOperands (fromByte c ob) bs with
    | none => simp [hd] at h
    | some r =>
      simp only [hd, Except.ok.injEq] at h
      subst h
      obtain ⟨h1, h2⟩ := decodeOperands_some hd
      exact ⟨ob, h1.symm, by rw [h2]⟩

theorem decode_of_operandBytes {c : Config} {ob : Byte} {i : Instr} (h : fromByte c ob = i.op) (rest : List Byte) :
    decode c (ob :: (operandBytes i ++ rest)) = .ok (i, rest) := by
  simp [decode, h, decodeOperands_operandBytes]

/-! ### The opcode byte -/

theorem fromByte_map {c : Config} {b : Byte} (h : b.toNat < 18) : fromByte c b = c.opcodeMap[b.toNat] := by
  simp [fromByte, h]

theorem fromByte_nop {c : Config} {b : Byte} (h : 18 ≤ b.toNat) (hn : c.nopByte = some b) : fromByte c b = .nop := by
  simp [fromByte, hn, Nat.not_lt.2 h]

theorem fromByte_illegal {c : Config} {b : Byte} (h : 18 ≤ b.toNat) (hn : c.nopByte ≠ some b) :
    fromByte c b = .illegal := by
  simp [fromByte, hn, Nat.not_lt.2 h]

end Sys2Proof
end

