-- ==== Sys2Proof/Laws/Encoding.lean ====
section
/-! SUPPORT. The opcode map of a well-formed configuration, read in both directions. -/

namespace Sys2Proof

/-- The clauses of `Config.opcodeMapOk`. -/
theorem opcodeMap_ok {c : Config} (h : c.wf = true) :
    c.opcodeMap.toList.Nodup ∧ Op.nop ∉ c.opcodeMap.toList ∧ Op.illegal ∉ c.opcodeMap.toList := by
  simp only [Config.wf, Config.opcodeMapOk, Bool.and_eq_true, decide_eq_true_eq, Bool.not_eq_true',
    List.contains_eq_mem, decide_eq_false_iff_not] at h
  exact ⟨h.1.1.1.1.1, h.1.1.1.1.2, h.1.1.1.2⟩

/-- The 18 operations that the opcode map gives a byte. -/
def mappedOps : List Op :=
  [.load, .add, .sub, .mul, .div, .halt, .jmp, .jmpf, .jmpb, .eq, .neq, .gt, .lt, .gtq, .ltq, .jeq, .jneq, .aloc]

/-- Every operation but nop and illegal stands in the opcode map. -/
theorem mem_opcodeMap {c : Config} (h : c.wf = true) {op : Op} (h1 : op ≠ .nop) (h2 : op ≠ .illegal) :
    op ∈ c.opcodeMap.toList := by
  obtain ⟨hn, hnop, hill⟩ := opcodeMap_ok h
  have hsub : c.opcodeMap.toList ⊆ mappedOps := by
    intro x hx
    cases x <;> first | (simp [mappedOps]; done) | exact absurd hx hnop | exact absurd hx hill
  have hp := List.Subperm.perm_of_length_le (List.subperm_of_subset hn hsub) (by simp [mappedOps])
  refine hp.mem_iff.2 ?_
  cases op <;> simp_all [mappedOps]

/-- The byte of an operation of the map is the operation's place in it. -/
theorem toByte_some {c : Config} {op : Op} {b : Byte} (hn1 : op ≠ .nop) (hn2 : op ≠ .illegal)
    (h : toByte c op = some b) : ∃ hb : b.toNat < 18, c.opcodeMap[b.toNat] = op := by
  simp only [toByte, hn1, hn2, if_false, Option.map_eq_some_iff] at h
  obtain ⟨k, hk, rfl⟩ := h
  rw [List.findIdx?_eq_some_iff_getElem] at hk
  obtain ⟨hl, he, -⟩ := hk
  have hl' : k < 18 := by simpa using hl
  have : (BitVec.ofNat 8 k).toNat = k := by simp; omega
  refine ⟨by omega, ?_⟩
  simp only [this]
  simpa using he

end Sys2Proof
end

