-- ==== Sys2Proof/Laws/Memory.lean ====
section
/-! SUPPORT. The laws of the byte stores: what each operation reads as afterwards, that each keeps the canonical form,
and that the canonical form decides equality. -/

namespace Sys2Proof.Machine

/-! ### Lookup -/

theorem lookupCell_append (xs : List Host.Cell) (k : Nat) (v : Byte) (a : Nat) (h : a ≠ k) :
    lookupCell (xs ++ [(k, v)]) a = lookupCell xs a := by
  induction xs with
  | nil => simp [lookupCell, Ne.symm h]
  | cons x xs ih => simp [lookupCell, ih]

theorem lookupCell_eq_zero_of_lt {size lo : Nat} {xs : List Host.Cell} (h : cellsOk size lo xs = true) {a : Nat}
    (ha : a < lo) : lookupCell xs a = 0#8 := by
  induction xs generalizing lo with
  | nil => rfl
  | cons x xs ih =>
    obtain ⟨k, v⟩ := x
    simp only [cellsOk, Bool.and_eq_true, decide_eq_true_eq] at h
    have hne : k ≠ a := by omega
    simp [lookupCell, hne, ih h.2 (by omega)]

theorem lookupCell_eq_zero_of_ge {size lo : Nat} {xs : List Host.Cell} (h : cellsOk size lo xs = true) {a : Nat}
    (ha : size ≤ a) : lookupCell xs a = 0#8 := by
  induction xs generalizing lo with
  | nil => rfl
  | cons x xs ih =>
    obtain ⟨k, v⟩ := x
    simp only [cellsOk, Bool.and_eq_true, decide_eq_true_eq] at h
    have hne : k ≠ a := by omega
    simp [lookupCell, hne, ih h.2]

theorem cellsOk_append {size lo : Nat} {xs : List Host.Cell} (h : cellsOk size lo xs = true) (hlo : lo ≤ size)
    (v : Byte) (hv : v ≠ 0#8) : cellsOk (size + 1) lo (xs ++ [(size, v)]) = true := by
  induction xs generalizing lo with
  | nil => simp [cellsOk, hlo, hv]
  | cons x xs ih =>
    obtain ⟨k, w⟩ := x
    simp only [cellsOk, Bool.and_eq_true, decide_eq_true_eq] at h
    simp only [List.cons_append, cellsOk, Bool.and_eq_true, decide_eq_true_eq]
    exact ⟨⟨⟨h.1.1.1, by omega⟩, h.1.2⟩, ih h.2 (by omega)⟩

theorem cellsOk_mono {size size' lo : Nat} {xs : List Host.Cell} (h : cellsOk size lo xs = true)
    (hs : size ≤ size') : cellsOk size' lo xs = true := by
  induction xs generalizing lo with
  | nil => rfl
  | cons x xs ih =>
    obtain ⟨k, w⟩ := x
    simp only [cellsOk, Bool.and_eq_true, decide_eq_true_eq] at h ⊢
    exact ⟨⟨⟨h.1.1.1, by omega⟩, h.1.2⟩, ih h.2⟩

theorem cellsOk_of_le {size lo lo' : Nat} {xs : List Host.Cell} (h : cellsOk size lo xs = true) (hl : lo' ≤ lo) :
    cellsOk size lo' xs = true := by
  cases xs with
  | nil => rfl
  | cons x xs =>
    obtain ⟨k, w⟩ := x
    simp only [cellsOk, Bool.and_eq_true, decide_eq_true_eq] at h ⊢
    exact ⟨⟨⟨by omega, h.1.1.2⟩, h.1.2⟩, h.2⟩

/-! ### Reading -/

theorem Memory.read_of_lt (m : Memory) {a : Nat} (h : a < m.size) : m.read a = some (lookupCell m.cells a) := by
  simp [Memory.read, h]

@[simp] theorem Memory.read_eq_none {m : Memory} {a : Nat} : m.read a = none ↔ m.size ≤ a := by
  simp [Memory.read]

theorem Memory.read_lt {m : Memory} {a : Nat} {b : Byte} (h : m.read a = some b) : a < m.size := by
  by_contra hc
  rw [Memory.read_eq_none.2 (by omega)] at h
  cases h

/-! ### Appending -/

@[simp] theorem Memory.push_size (m : Memory) (b : Byte) : (m.push b).size = m.size + 1 := rfl

theorem Memory.push_lookup (m : Memory) (b : Byte) {a : Nat} (h : a ≠ m.size) :
    lookupCell (m.push b).cells a = lookupCell m.cells a := by
  by_cases hb : b = 0#8
  · simp [Memory.push, hb]
  · simp [Memory.push, hb, lookupCell_append _ _ _ _ h]

theorem Memory.push_read_old (m : Memory) (b : Byte) {a : Nat} (h : a < m.size) :
    (m.push b).read a = m.read a := by
  have : a < (m.push b).size := by simp; omega
  rw [Memory.read_of_lt _ this, Memory.read_of_lt _ h, Memory.push_lookup m b (by omega)]

theorem lookupCell_append_self {size lo : Nat} {xs : List Host.Cell} (h : cellsOk size lo xs = true) (v : Byte) :
    lookupCell (xs ++ [(size, v)]) size = v := by
  induction xs generalizing lo with
  | nil => simp [lookupCell]
  | cons x xs ih =>
    obtain ⟨k, w⟩ := x
    simp only [cellsOk, Bool.and_eq_true, decide_eq_true_eq] at h
    have hne : k ≠ size := by omega
    simp [lookupCell, hne, ih h.2]

theorem Memory.push_read_new (m : Memory) (b : Byte) (h : m.wf = true) : (m.push b).read m.size = some b := by
  have hlt : m.size < (m.push b).size := by simp
  rw [Memory.read_of_lt _ hlt]
  by_cases hb : b = 0#8
  · simp [Memory.push, hb, lookupCell_eq_zero_of_ge h (Nat.le_refl _)]
  · simp [Memory.push, hb, lookupCell_append_self h]

theorem Memory.push_wf (m : Memory) (b : Byte) (h : m.wf = true) : (m.push b).wf = true := by
  by_cases hb : b = 0#8
  · simpa [Memory.wf, Memory.push, hb] using cellsOk_mono h (Nat.le_succ _)
  · simpa [Memory.wf, Memory.push, hb] using cellsOk_append h (Nat.zero_le _) b hb

@[simp] theorem Memory.append_size (m : Memory) (bs : List Byte) : (m.append bs).size = m.size + bs.length := by
  induction bs generalizing m with
  | nil => rfl
  | cons b bs ih => simp [Memory.append, ih]; omega

theorem Memory.append_read_old (m : Memory) (bs : List Byte) {a : Nat} (h : a < m.size) :
    (m.append bs).read a = m.read a := by
  induction bs generalizing m with
  | nil => rfl
  | cons b bs ih =>
    rw [Memory.append, ih _ (by simp; omega), Memory.push_read_old m b h]

theorem Memory.append_read_new (m : Memory) (bs : List Byte) (h : m.wf = true) (k : Nat) (hk : k < bs.length) :
    (m.append bs).read (m.size + k) = bs[k]? := by
  induction bs generalizing m k with
  | nil => simp at hk
  | cons b bs ih =>
    cases k with
    | zero =>
      rw [Memory.append, Memory.append_read_old _ _ (by simp)]
      simp [Memory.push_read_new m b h]
    | succ k =>
      have := ih (m.push b) (m.push_wf b h) k (by simpa using hk)
      simp only [Memory.push_size] at this
      rw [Memory.append, ← Nat.add_assoc, Nat.add_right_comm, this]
      simp

theorem Memory.append_wf (m : Memory) (bs : List Byte) (h : m.wf = true) : (m.append bs).wf = true := by
  induction bs generalizing m with
  | nil => exact h
  | cons b bs ih => exact ih _ (m.push_wf b h)

/-! ### Growing -/

@[simp] theorem Memory.growZero_size (m : Memory) (n : Nat) : (m.growZero n).size = m.size + n := rfl

@[simp] theorem Memory.growZero_zero (m : Memory) : m.growZero 0 = m := rfl

theorem Memory.growZero_read_old (m : Memory) (n : Nat) {a : Nat} (h : a < m.size) :
    (m.growZero n).read a = m.read a := by
  rw [Memory.read_of_lt _ h, Memory.read_of_lt _ (show a < (m.growZero n).size by simp; omega)]
  rfl

theorem Memory.growZero_read_new (m : Memory) (n : Nat) (h : m.wf = true) {a : Nat} (h1 : m.size ≤ a)
    (h2 : a < m.size + n) : (m.growZero n).read a = some 0#8 := by
  rw [Memory.read_of_lt _ (show a < (m.growZero n).size by simpa using h2)]
  exact congrArg some (lookupCell_eq_zero_of_ge h h1)

theorem Memory.growZero_wf (m : Memory) (n : Nat) (h : m.wf = true) : (m.growZero n).wf = true :=
  cellsOk_mono h (Nat.le_add_right _ _)

/-! ### Placing bytes -/

theorem setCell_lookup (xs : List Host.Cell) (size lo : Nat) (h : cellsOk size lo xs = true) (a : Nat) (b : Byte)
    (c : Nat) : lookupCell (setCell xs a b) c = if c = a then b else lookupCell xs c := by
  induction xs generalizing lo with
  | nil =>
    by_cases hb : b = 0#8 <;> by_cases hc : c = a <;> simp [setCell, lookupCell, hb, hc, Ne.symm]
  | cons x xs ih =>
    obtain ⟨k, v⟩ := x
    simp only [cellsOk, Bool.and_eq_true, decide_eq_true_eq] at h
    have hz : ∀ e, e ≤ k → lookupCell xs e = 0#8 := fun e he => lookupCell_eq_zero_of_lt h.2 (by omega)
    rcases Nat.lt_trichotomy a k with hak | hak | hak
    · by_cases hb : b = 0#8
      · simp only [setCell, hak, if_true, hb]
        by_cases hc : c = a
        · subst hc
          simp [lookupCell, hz c (by omega), show k ≠ c by omega]
        · simp [hc]
      · simp only [setCell, hak, if_true, hb, if_false]
        by_cases hc : c = a
        · simp [lookupCell, hc]
        · simp [lookupCell, hc, Ne.symm hc]
    · subst hak
      by_cases hb : b = 0#8
      · by_cases hc : c = a
        · simp [setCell, hb, hc, hz a (Nat.le_refl _)]
        · simp [setCell, hb, hc, lookupCell, Ne.symm hc]
      · by_cases hc : c = a
        · simp [setCell, hb, hc, lookupCell]
        · simp [setCell, hb, hc, lookupCell, Ne.symm hc]
    · have h1 : ¬ a < k := by omega
      have h2 : a ≠ k := by omega
      simp only [setCell, h1, h2, if_false, lookupCell, ih _ h.2]
      by_cases hkc : k = c
      · simp [hkc, show c ≠ a by omega]
      · simp [hkc]

theorem setCell_ok (xs : List Host.Cell) (size lo : Nat) (h : cellsOk size lo xs = true) (a : Nat) (b : Byte)
    (ha : lo ≤ a) : cellsOk (max size (a + 1)) lo (setCell xs a b) = true := by
  induction xs generalizing lo with
  | nil =>
    by_cases hb : b = 0#8
    · simp [setCell, hb, cellsOk]
    · simp [setCell, hb, cellsOk, ha]
  | cons x xs ih =>
    obtain ⟨k, v⟩ := x
    have h0 := h
    simp only [cellsOk, Bool.and_eq_true, decide_eq_true_eq] at h
    have hs : size ≤ max size (a + 1) := Nat.le_max_left _ _
    rcases Nat.lt_trichotomy a k with hak | hak | hak
    · by_cases hb : b = 0#8
      · simpa [setCell, hak, hb] using cellsOk_mono h0 hs
      · have ht : cellsOk (max size (a + 1)) (a + 1) ((k, v) :: xs) = true := by
          simp only [cellsOk, Bool.and_eq_true, decide_eq_true_eq]
          exact ⟨⟨⟨by omega, by omega⟩, h.1.2⟩, cellsOk_mono h.2 hs⟩
        simp only [setCell, hak, if_true, hb, if_false]
        rw [cellsOk, ht]
        simp [ha, hb]
    · subst hak
      by_cases hb : b = 0#8
      · simpa [setCell, hb] using cellsOk_of_le (cellsOk_mono h.2 hs) (show lo ≤ a + 1 by omega)
      · simp [setCell, hb, cellsOk, ha, cellsOk_mono h.2 hs]
    · have h1 : ¬ a < k := by omega
      have h2 : a ≠ k := by omega
      simp only [setCell, h1, h2, if_false, cellsOk, Bool.and_eq_true, decide_eq_true_eq]
      exact ⟨⟨⟨h.1.1.1, by omega⟩, h.1.2⟩, ih _ h.2 (by omega)⟩

theorem Memory.poke_wf (m : Memory) (a : Nat) (b : Byte) (h : m.wf = true) : (m.poke a b).wf = true :=
  setCell_ok m.cells m.size 0 h a b (Nat.zero_le _)

theorem Memory.poke_read (m : Memory) (a : Nat) (b : Byte) (h : m.wf = true) : (m.poke a b).read a = some b := by
  have ha : a < (m.poke a b).size := Nat.lt_of_lt_of_le (Nat.lt_succ_self a) (Nat.le_max_right _ _)
  rw [Memory.read_of_lt _ ha]
  exact congrArg some ((setCell_lookup m.cells m.size 0 h a b a).trans (if_pos rfl))

theorem Memory.pokeAll_wf (m : Memory) (a : Nat) (bs : List Byte) (h : m.wf = true) :
    (m.pokeAll a bs).wf = true := by
  induction bs generalizing m a with
  | nil => exact h
  | cons b bs ih => exact ih _ _ (m.poke_wf a b h)

/-! ### The canonical form decides equality -/

theorem cells_ext {size lo : Nat} {xs ys : List Host.Cell} (hx : cellsOk size lo xs = true)
    (hy : cellsOk size lo ys = true) (h : ∀ a, lookupCell xs a = lookupCell ys a) : xs = ys := by
  induction xs generalizing lo ys with
  | nil =>
    cases ys with
    | nil => rfl
    | cons y ys =>
      obtain ⟨k, v⟩ := y
      simp only [cellsOk, Bool.and_eq_true, decide_eq_true_eq] at hy
      have := h k
      simp [lookupCell] at this
      exact absurd this.symm hy.1.2
  | cons x xs ih =>
    obtain ⟨k, v⟩ := x
    have hx0 := hx
    simp only [cellsOk, Bool.and_eq_true, decide_eq_true_eq] at hx
    cases ys with
    | nil =>
      have := h k
      simp [lookupCell] at this
      exact absurd this hx.1.2
    | cons y ys =>
      obtain ⟨l, w⟩ := y
      have hy0 := hy
      simp only [cellsOk, Bool.and_eq_true, decide_eq_true_eq] at hy
      have hkl : k = l := by
        rcases Nat.lt_trichotomy k l with hlt | heq | hgt
        · have := h k
          rw [lookupCell, if_pos rfl, lookupCell, if_neg (by omega), lookupCell_eq_zero_of_lt hy.2 (by omega)] at this
          exact absurd this hx.1.2
        · exact heq
        · have := h l
          rw [lookupCell, if_neg (by omega), lookupCell_eq_zero_of_lt hx.2 (by omega), lookupCell, if_pos rfl] at this
          exact absurd this.symm hy.1.2
      subst hkl
      have hvw : v = w := by simpa [lookupCell] using h k
      subst hvw
      have : xs = ys := ih hx.2 hy.2 (fun a => by
        by_cases hka : k = a
        · subst hka
          rw [lookupCell_eq_zero_of_lt hx.2 (Nat.lt_succ_self _), lookupCell_eq_zero_of_lt hy.2 (Nat.lt_succ_self _)]
        · simpa [lookupCell, hka] using h a)
      rw [this]

theorem Memory.ext_of_read {m m' : Memory} (h : m.wf = true) (h' : m'.wf = true)
    (hr : ∀ a, m.read a = m'.read a) : m = m' := by
  have hs : m.size = m'.size := by
    rcases Nat.lt_trichotomy m.size m'.size with hlt | heq | hgt
    · have := hr m.size
      rw [Memory.read_eq_none.2 (Nat.le_refl _), Memory.read_of_lt _ hlt] at this
      cases this
    · exact heq
    · have := hr m'.size
      rw [Memory.read_eq_none.2 (Nat.le_refl m'.size), Memory.read_of_lt _ hgt] at this
      cases this
  obtain ⟨size, cells⟩ := m
  obtain ⟨size', cells'⟩ := m'
  simp only at hs
  subst hs
  have : cells = cells' := cells_ext h h' (fun a => by
    by_cases ha : a < size
    · simpa [Memory.read, ha] using hr a
    · rw [lookupCell_eq_zero_of_ge h (Nat.le_of_not_lt ha), lookupCell_eq_zero_of_ge h' (Nat.le_of_not_lt ha)])
  rw [this]

/-! ### Reset -/

theorem Memory.empty_wf : Memory.wf { size := 0, cells := [] } = true := rfl

theorem reset_stores_wf (c : Config) : (State.resetWith c).buffer.wf = true ∧ (State.resetWith c).heap.wf = true :=
  ⟨rfl, rfl⟩

/-! ### Windows -/

theorem Memory.window_getElem? (m : Memory) (a n k : Nat) (hk : k < n) : (m.window a n)[k]? = m.read (a + k) := by
  induction n generalizing a k with
  | zero => omega
  | succ n ih =>
    rw [Memory.window]
    cases hr : m.read a with
    | none =>
      have : m.read (a + k) = none := by
        rw [Memory.read_eq_none] at hr ⊢
        omega
      simp [this]
    | some b =>
      cases k with
      | zero => simp [hr]
      | succ k =>
        have := ih (a + 1) k (by omega)
        simp [this, Nat.add_assoc, Nat.add_comm 1 k]

theorem Memory.window_length (m : Memory) (a n : Nat) : (m.window a n).length = min n (m.size - a) := by
  induction n generalizing a with
  | zero => simp [Memory.window]
  | succ n ih =>
    rw [Memory.window]
    cases hr : m.read a with
    | none =>
      rw [Memory.read_eq_none] at hr
      simp; omega
    | some b =>
      have := Memory.read_lt hr
      simp [ih]; omega

end Sys2Proof.Machine
end

