-- ==== Sys2Proof/Laws/State.lean ====
section
/-! SUPPORT. One lemma per field per update of `State`, and the register file's accessor laws, so that no later proof
unfolds a record update. -/

namespace Sys2Proof.Machine

/-! ### `writeReg` -/

@[simp] theorem State.writeReg_cfg (s : State) (i : RegId) (v : Word) : (s.writeReg i v).cfg = s.cfg := rfl
@[simp] theorem State.writeReg_regs (s : State) (i : RegId) (v : Word) : (s.writeReg i v).regs = s.regs.set i.val (Cell.holding v) := rfl
@[simp] theorem State.writeReg_pc (s : State) (i : RegId) (v : Word) : (s.writeReg i v).pc = s.pc := rfl
@[simp] theorem State.writeReg_flag (s : State) (i : RegId) (v : Word) : (s.writeReg i v).flag = s.flag := rfl
@[simp] theorem State.writeReg_rem (s : State) (i : RegId) (v : Word) : (s.writeReg i v).rem = s.rem := rfl
@[simp] theorem State.writeReg_heap (s : State) (i : RegId) (v : Word) : (s.writeReg i v).heap = s.heap := rfl
@[simp] theorem State.writeReg_buffer (s : State) (i : RegId) (v : Word) : (s.writeReg i v).buffer = s.buffer := rfl
@[simp] theorem State.writeReg_fault (s : State) (i : RegId) (v : Word) : (s.writeReg i v).fault = s.fault := rfl
@[simp] theorem State.writeReg_outcome (s : State) (i : RegId) (v : Word) : (s.writeReg i v).outcome = s.outcome := rfl

/-! ### `writeFlag` -/

@[simp] theorem State.writeFlag_cfg (s : State) (v : Bool) : (s.writeFlag v).cfg = s.cfg := rfl
@[simp] theorem State.writeFlag_regs (s : State) (v : Bool) : (s.writeFlag v).regs = s.regs := rfl
@[simp] theorem State.writeFlag_pc (s : State) (v : Bool) : (s.writeFlag v).pc = s.pc := rfl
@[simp] theorem State.writeFlag_flag (s : State) (v : Bool) : (s.writeFlag v).flag = Cell.holding v := rfl
@[simp] theorem State.writeFlag_rem (s : State) (v : Bool) : (s.writeFlag v).rem = s.rem := rfl
@[simp] theorem State.writeFlag_heap (s : State) (v : Bool) : (s.writeFlag v).heap = s.heap := rfl
@[simp] theorem State.writeFlag_buffer (s : State) (v : Bool) : (s.writeFlag v).buffer = s.buffer := rfl
@[simp] theorem State.writeFlag_fault (s : State) (v : Bool) : (s.writeFlag v).fault = s.fault := rfl
@[simp] theorem State.writeFlag_outcome (s : State) (v : Bool) : (s.writeFlag v).outcome = s.outcome := rfl
@[simp] theorem State.writeFlag_reg (s : State) (v : Bool) (j : RegId) : (s.writeFlag v).reg j = s.reg j := rfl

/-! ### `writeRem` -/

@[simp] theorem State.writeRem_cfg (s : State) (v : Word) : (s.writeRem v).cfg = s.cfg := rfl
@[simp] theorem State.writeRem_regs (s : State) (v : Word) : (s.writeRem v).regs = s.regs := rfl
@[simp] theorem State.writeRem_pc (s : State) (v : Word) : (s.writeRem v).pc = s.pc := rfl
@[simp] theorem State.writeRem_flag (s : State) (v : Word) : (s.writeRem v).flag = s.flag := rfl
@[simp] theorem State.writeRem_rem (s : State) (v : Word) : (s.writeRem v).rem = Cell.holding v := rfl
@[simp] theorem State.writeRem_heap (s : State) (v : Word) : (s.writeRem v).heap = s.heap := rfl
@[simp] theorem State.writeRem_buffer (s : State) (v : Word) : (s.writeRem v).buffer = s.buffer := rfl
@[simp] theorem State.writeRem_fault (s : State) (v : Word) : (s.writeRem v).fault = s.fault := rfl
@[simp] theorem State.writeRem_outcome (s : State) (v : Word) : (s.writeRem v).outcome = s.outcome := rfl
@[simp] theorem State.writeRem_reg (s : State) (v : Word) (j : RegId) : (s.writeRem v).reg j = s.reg j := rfl

/-! ### `setPc` -/

@[simp] theorem State.setPc_cfg (s : State) (t : Word) : (s.setPc t).cfg = s.cfg := rfl
@[simp] theorem State.setPc_regs (s : State) (t : Word) : (s.setPc t).regs = s.regs := rfl
@[simp] theorem State.setPc_pc (s : State) (t : Word) : (s.setPc t).pc = t := rfl
@[simp] theorem State.setPc_flag (s : State) (t : Word) : (s.setPc t).flag = s.flag := rfl
@[simp] theorem State.setPc_rem (s : State) (t : Word) : (s.setPc t).rem = s.rem := rfl
@[simp] theorem State.setPc_heap (s : State) (t : Word) : (s.setPc t).heap = s.heap := rfl
@[simp] theorem State.setPc_buffer (s : State) (t : Word) : (s.setPc t).buffer = s.buffer := rfl
@[simp] theorem State.setPc_fault (s : State) (t : Word) : (s.setPc t).fault = s.fault := rfl
@[simp] theorem State.setPc_outcome (s : State) (t : Word) : (s.setPc t).outcome = s.outcome := rfl
@[simp] theorem State.setPc_reg (s : State) (t : Word) (j : RegId) : (s.setPc t).reg j = s.reg j := rfl

/-! ### `advance` -/

@[simp] theorem State.advance_cfg (s : State) (n : Nat) : (s.advance n).cfg = s.cfg := rfl
@[simp] theorem State.advance_regs (s : State) (n : Nat) : (s.advance n).regs = s.regs := rfl
@[simp] theorem State.advance_pc (s : State) (n : Nat) : (s.advance n).pc = s.pc + BitVec.ofNat 32 n := rfl
@[simp] theorem State.advance_flag (s : State) (n : Nat) : (s.advance n).flag = s.flag := rfl
@[simp] theorem State.advance_rem (s : State) (n : Nat) : (s.advance n).rem = s.rem := rfl
@[simp] theorem State.advance_heap (s : State) (n : Nat) : (s.advance n).heap = s.heap := rfl
@[simp] theorem State.advance_buffer (s : State) (n : Nat) : (s.advance n).buffer = s.buffer := rfl
@[simp] theorem State.advance_fault (s : State) (n : Nat) : (s.advance n).fault = s.fault := rfl
@[simp] theorem State.advance_outcome (s : State) (n : Nat) : (s.advance n).outcome = s.outcome := rfl
@[simp] theorem State.advance_reg (s : State) (n : Nat) (j : RegId) : (s.advance n).reg j = s.reg j := rfl

/-! ### `growHeap` -/

@[simp] theorem State.growHeap_cfg (s : State) (n : Nat) : (s.growHeap n).cfg = s.cfg := rfl
@[simp] theorem State.growHeap_regs (s : State) (n : Nat) : (s.growHeap n).regs = s.regs := rfl
@[simp] theorem State.growHeap_pc (s : State) (n : Nat) : (s.growHeap n).pc = s.pc := rfl
@[simp] theorem State.growHeap_flag (s : State) (n : Nat) : (s.growHeap n).flag = s.flag := rfl
@[simp] theorem State.growHeap_rem (s : State) (n : Nat) : (s.growHeap n).rem = s.rem := rfl
@[simp] theorem State.growHeap_heap (s : State) (n : Nat) : (s.growHeap n).heap = s.heap.growZero n := rfl
@[simp] theorem State.growHeap_buffer (s : State) (n : Nat) : (s.growHeap n).buffer = s.buffer := rfl
@[simp] theorem State.growHeap_fault (s : State) (n : Nat) : (s.growHeap n).fault = s.fault := rfl
@[simp] theorem State.growHeap_outcome (s : State) (n : Nat) : (s.growHeap n).outcome = s.outcome := rfl
@[simp] theorem State.growHeap_reg (s : State) (n : Nat) (j : RegId) : (s.growHeap n).reg j = s.reg j := rfl

/-! ### `withOutcome` -/

@[simp] theorem State.withOutcome_cfg (s : State) (o : StepOutcome) : (s.withOutcome o).cfg = s.cfg := rfl
@[simp] theorem State.withOutcome_regs (s : State) (o : StepOutcome) : (s.withOutcome o).regs = s.regs := rfl
@[simp] theorem State.withOutcome_pc (s : State) (o : StepOutcome) : (s.withOutcome o).pc = s.pc := rfl
@[simp] theorem State.withOutcome_flag (s : State) (o : StepOutcome) : (s.withOutcome o).flag = s.flag := rfl
@[simp] theorem State.withOutcome_rem (s : State) (o : StepOutcome) : (s.withOutcome o).rem = s.rem := rfl
@[simp] theorem State.withOutcome_heap (s : State) (o : StepOutcome) : (s.withOutcome o).heap = s.heap := rfl
@[simp] theorem State.withOutcome_buffer (s : State) (o : StepOutcome) : (s.withOutcome o).buffer = s.buffer := rfl
@[simp] theorem State.withOutcome_fault (s : State) (o : StepOutcome) : (s.withOutcome o).fault = s.fault := rfl
@[simp] theorem State.withOutcome_outcome (s : State) (o : StepOutcome) : (s.withOutcome o).outcome = o := rfl
@[simp] theorem State.withOutcome_reg (s : State) (o : StepOutcome) (j : RegId) : (s.withOutcome o).reg j = s.reg j := rfl

/-! ### `raise` -/

@[simp] theorem State.raise_cfg (s : State) (f : Fault) : (s.raise f).cfg = s.cfg := rfl
@[simp] theorem State.raise_regs (s : State) (f : Fault) : (s.raise f).regs = s.regs := rfl
@[simp] theorem State.raise_pc (s : State) (f : Fault) : (s.raise f).pc = s.pc := rfl
@[simp] theorem State.raise_flag (s : State) (f : Fault) : (s.raise f).flag = s.flag := rfl
@[simp] theorem State.raise_rem (s : State) (f : Fault) : (s.raise f).rem = s.rem := rfl
@[simp] theorem State.raise_heap (s : State) (f : Fault) : (s.raise f).heap = s.heap := rfl
@[simp] theorem State.raise_buffer (s : State) (f : Fault) : (s.raise f).buffer = s.buffer := rfl
@[simp] theorem State.raise_fault (s : State) (f : Fault) : (s.raise f).fault = some { cause := f, fpc := s.pc, opbyte := s.opcodeByte } := rfl
@[simp] theorem State.raise_outcome (s : State) (f : Fault) : (s.raise f).outcome = .faulted f := rfl
@[simp] theorem State.raise_reg (s : State) (f : Fault) (j : RegId) : (s.raise f).reg j = s.reg j := rfl

/-! ### The register file -/

theorem State.writeReg_reg (s : State) (i j : RegId) (v : Word) :
    (s.writeReg i v).reg j = if i = j then Cell.holding v else s.reg j := by
  simp [State.reg, State.writeReg, Vector.getElem_set, Fin.ext_iff]

@[simp] theorem State.writeReg_reg_same (s : State) (i : RegId) (v : Word) :
    (s.writeReg i v).reg i = Cell.holding v := by
  simp [State.writeReg_reg]

theorem State.writeReg_reg_of_ne (s : State) {i j : RegId} (v : Word) (h : i ≠ j) :
    (s.writeReg i v).reg j = s.reg j := by
  simp [State.writeReg_reg, h]

@[simp] theorem Cell.holding_value {α : Type} (v : α) : (Cell.holding v).value = v := rfl

@[simp] theorem Cell.holding_written {α : Type} (v : α) : (Cell.holding v).written = true := rfl

/-- Two register files that agree at every register are equal. -/
theorem regs_ext {u v : Vector (Cell Word) 32} (h : ∀ i : RegId, u[i.val] = v[i.val]) : u = v :=
  Vector.ext (fun i hi => h ⟨i, hi⟩)

/-! ### `settle` -/

@[simp] theorem State.settle_ok (s t : State) (o : StepOutcome) :
    s.settle (.ok t) o = .next (t.withOutcome o) := rfl

@[simp] theorem State.settle_error (s : State) (f : Fault) (o : StepOutcome) :
    s.settle (.error f) o = .next (s.raise f) := rfl

end Sys2Proof.Machine
end

