-- ==== Sys2Proof/Laws/Operands.lean ====
section
/-! SUPPORT. One spec lemma per operand form: what it answers where every check passes, what it raises where one fails,
and what its answer says of the state. -/

namespace Sys2Proof.Machine

/-! ### Register fields -/

@[simp] theorem regIndex_regByte (i : RegId) : regIndex (regByte i) = .ok i := by
  have h := regByte_lt i
  simp only [regIndex, h, dif_pos]
  exact congrArg _ (Fin.ext (regByte_toNat i))

theorem regIndex_bad {f : Byte} (h : 32 ≤ f.toNat) : regIndex f = .error .badRegister := by
  simp [regIndex, Nat.not_lt.2 h]

theorem regIndex_ok {f : Byte} {i : RegId} (h : regIndex f = .ok i) : f = regByte i := by
  by_cases hf : f.toNat < 32
  · obtain ⟨j, rfl⟩ := exists_regByte hf
    rw [regIndex_regByte] at h
    cases h; rfl
  · rw [regIndex_bad (Nat.not_lt.1 hf)] at h
    cases h

/-- A register field either names a register or raises `BadRegister`. -/
theorem regIndex_cases (f : Byte) :
    (∃ i, f = regByte i ∧ regIndex f = .ok i) ∨ (32 ≤ f.toNat ∧ regIndex f = .error .badRegister) := by
  by_cases hf : f.toNat < 32
  · obtain ⟨i, rfl⟩ := exists_regByte hf
    exact .inl ⟨i, rfl, regIndex_regByte i⟩
  · exact .inr ⟨Nat.not_lt.1 hf, regIndex_bad (Nat.not_lt.1 hf)⟩

/-! ### Reads -/

theorem Cell.read_readable {α : Type} {c : Cell α} {p : ResetPolicy} (h : c.readable p = true) :
    c.read p = .ok c.value := by
  simp [Cell.read, h]

theorem Cell.read_unreadable {α : Type} {c : Cell α} {p : ResetPolicy} (h : ¬ c.readable p = true) :
    c.read p = .error .unwrittenRead := by
  simp [Cell.read, h]

theorem Cell.read_ok {α : Type} {c : Cell α} {p : ResetPolicy} {v : α} (h : c.read p = .ok v) :
    c.readable p = true ∧ v = c.value := by
  by_cases hr : c.readable p = true
  · rw [Cell.read_readable hr] at h
    cases h; exact ⟨hr, rfl⟩
  · rw [Cell.read_unreadable hr] at h
    cases h

@[simp] theorem Cell.readable_zero {α : Type} (c : Cell α) : c.readable .zero = true := rfl

@[simp] theorem Cell.readable_unwritten {α : Type} (c : Cell α) : c.readable .unwritten = c.written := rfl

@[simp] theorem Cell.holding_readable {α : Type} (v : α) (p : ResetPolicy) : (Cell.holding v).readable p = true := by
  cases p <;> rfl

theorem State.readReg_ok (s : State) {i : RegId} (h : s.RegReadable i) : s.readReg i = .ok (s.reg i).value :=
  Cell.read_readable h

theorem State.readReg_error (s : State) {i : RegId} (h : ¬ s.RegReadable i) : s.readReg i = .error .unwrittenRead :=
  Cell.read_unreadable h

theorem State.readFlag_ok (s : State) (h : s.FlagReadable) : s.readFlag = .ok s.flag.value :=
  Cell.read_readable h

theorem State.readFlag_error (s : State) (h : ¬ s.FlagReadable) : s.readFlag = .error .unwrittenRead :=
  Cell.read_unreadable h

/-! ### Sequencing -/

@[simp] theorem bind_ok_right {α β : Type} (v : α) (k : α → Except Fault β) :
    (Except.ok v >>= k : Except Fault β) = k v := rfl

@[simp] theorem bind_error_right {α β : Type} (f : Fault) (k : α → Except Fault β) :
    (Except.error f >>= k : Except Fault β) = .error f := rfl

@[simp] theorem pure_eq_ok {α : Type} (v : α) : (pure v : Except Fault α) = .ok v := rfl

/-- What a sequence of two parts that passed says: each part passed. -/
theorem bind_eq_ok {α β : Type} {m : Except Fault α} {k : α → Except Fault β} {v : β} (h : (m >>= k) = .ok v) :
    ∃ a, m = .ok a ∧ k a = .ok v := by
  cases m with
  | error f => cases h
  | ok a => exact ⟨a, rfl, h⟩

/-! ### Operand forms where every check passes -/

theorem State.operandsRRR_ok (s : State) {a b : RegId} (d : RegId) (ha : s.RegReadable a) (hb : s.RegReadable b) :
    s.operandsRRR (regByte a) (regByte b) (regByte d) = .ok ((s.reg a).value, (s.reg b).value, d) := by
  simp [State.operandsRRR, State.readReg_ok s ha, State.readReg_ok s hb]

theorem State.operandsRR_ok (s : State) {a b : RegId} (ha : s.RegReadable a) (hb : s.RegReadable b) :
    s.operandsRR (regByte a) (regByte b) = .ok ((s.reg a).value, (s.reg b).value) := by
  simp [State.operandsRR, State.readReg_ok s ha, State.readReg_ok s hb]

theorem State.operandR_ok (s : State) {t : RegId} (ht : s.RegReadable t) :
    s.operandR (regByte t) = .ok (s.reg t).value := by
  simp [State.operandR, State.readReg_ok s ht]

theorem State.operandRFlag_ok (s : State) {t : RegId} (ht : s.RegReadable t) (hf : s.FlagReadable) :
    s.operandRFlag (regByte t) = .ok ((s.reg t).value, s.flag.value) := by
  simp [State.operandRFlag, State.operandR_ok s ht, State.readFlag_ok s hf]

/-! ### What an operand form's answer says -/

theorem State.operandsRRR_inv {s : State} {a b d : Byte} {x y : Word} {id : RegId}
    (h : s.operandsRRR a b d = .ok (x, y, id)) :
    ∃ ia ib, a = regByte ia ∧ b = regByte ib ∧ d = regByte id ∧ s.RegReadable ia ∧ s.RegReadable ib ∧
      x = (s.reg ia).value ∧ y = (s.reg ib).value := by
  unfold State.operandsRRR at h
  obtain ⟨ia, h1, h⟩ := bind_eq_ok h
  obtain ⟨ib, h2, h⟩ := bind_eq_ok h
  obtain ⟨jd, h3, h⟩ := bind_eq_ok h
  obtain ⟨u, h4, h⟩ := bind_eq_ok h
  obtain ⟨v, h5, h⟩ := bind_eq_ok h
  simp only [pure_eq_ok, Except.ok.injEq, Prod.mk.injEq] at h
  obtain ⟨rfl, rfl, rfl⟩ := h
  obtain ⟨hu, rfl⟩ := Cell.read_ok h4
  obtain ⟨hv, rfl⟩ := Cell.read_ok h5
  exact ⟨ia, ib, regIndex_ok h1, regIndex_ok h2, regIndex_ok h3, hu, hv, rfl, rfl⟩

theorem State.operandsRR_inv {s : State} {a b : Byte} {x y : Word} (h : s.operandsRR a b = .ok (x, y)) :
    ∃ ia ib, a = regByte ia ∧ b = regByte ib ∧ s.RegReadable ia ∧ s.RegReadable ib ∧
      x = (s.reg ia).value ∧ y = (s.reg ib).value := by
  unfold State.operandsRR at h
  obtain ⟨ia, h1, h⟩ := bind_eq_ok h
  obtain ⟨ib, h2, h⟩ := bind_eq_ok h
  obtain ⟨u, h4, h⟩ := bind_eq_ok h
  obtain ⟨v, h5, h⟩ := bind_eq_ok h
  simp only [pure_eq_ok, Except.ok.injEq, Prod.mk.injEq] at h
  obtain ⟨rfl, rfl⟩ := h
  obtain ⟨hu, rfl⟩ := Cell.read_ok h4
  obtain ⟨hv, rfl⟩ := Cell.read_ok h5
  exact ⟨ia, ib, regIndex_ok h1, regIndex_ok h2, hu, hv, rfl, rfl⟩

theorem State.operandR_inv {s : State} {t : Byte} {x : Word} (h : s.operandR t = .ok x) :
    ∃ it, t = regByte it ∧ s.RegReadable it ∧ x = (s.reg it).value := by
  unfold State.operandR at h
  obtain ⟨it, h1, h⟩ := bind_eq_ok h
  obtain ⟨hu, rfl⟩ := Cell.read_ok h
  exact ⟨it, regIndex_ok h1, hu, rfl⟩

theorem State.operandRFlag_inv {s : State} {t : Byte} {x : Word} {f : Bool} (h : s.operandRFlag t = .ok (x, f)) :
    ∃ it, t = regByte it ∧ s.RegReadable it ∧ s.FlagReadable ∧ x = (s.reg it).value ∧ f = s.flag.value := by
  unfold State.operandRFlag at h
  obtain ⟨u, h1, h⟩ := bind_eq_ok h
  obtain ⟨v, h2, h⟩ := bind_eq_ok h
  simp only [pure_eq_ok, Except.ok.injEq, Prod.mk.injEq] at h
  obtain ⟨rfl, rfl⟩ := h
  obtain ⟨it, ht, hr, rfl⟩ := State.operandR_inv h1
  obtain ⟨hv, rfl⟩ := Cell.read_ok h2
  exact ⟨it, ht, hr, hv, rfl, rfl⟩

/-! ### Operand forms where a field names no register -/

theorem State.operandsRRR_bad (s : State) {a b d : Byte} (h : ∃ f ∈ [a, b, d], 32 ≤ f.toNat) :
    s.operandsRRR a b d = .error .badRegister := by
  unfold State.operandsRRR
  rcases regIndex_cases a with ⟨ia, rfl, ha⟩ | ⟨_, ha⟩ <;> simp only [ha, bind_ok_right, bind_error_right]
  rcases regIndex_cases b with ⟨ib, rfl, hb⟩ | ⟨_, hb⟩ <;> simp only [hb, bind_ok_right, bind_error_right]
  rcases regIndex_cases d with ⟨jd, rfl, hd⟩ | ⟨_, hd⟩ <;> simp only [hd, bind_ok_right, bind_error_right]
  obtain ⟨f, hf, h32⟩ := h
  have h1 := regByte_lt ia
  have h2 := regByte_lt ib
  have h3 := regByte_lt jd
  simp only [List.mem_cons, List.not_mem_nil, or_false] at hf
  rcases hf with rfl | rfl | rfl <;> omega

theorem State.operandsRR_bad (s : State) {a b : Byte} (h : ∃ f ∈ [a, b], 32 ≤ f.toNat) :
    s.operandsRR a b = .error .badRegister := by
  unfold State.operandsRR
  rcases regIndex_cases a with ⟨ia, rfl, ha⟩ | ⟨_, ha⟩ <;> simp only [ha, bind_ok_right, bind_error_right]
  rcases regIndex_cases b with ⟨ib, rfl, hb⟩ | ⟨_, hb⟩ <;> simp only [hb, bind_ok_right, bind_error_right]
  obtain ⟨f, hf, h32⟩ := h
  have h1 := regByte_lt ia
  have h2 := regByte_lt ib
  simp only [List.mem_cons, List.not_mem_nil, or_false] at hf
  rcases hf with rfl | rfl <;> omega

theorem State.operandR_bad (s : State) {t : Byte} (h : 32 ≤ t.toNat) : s.operandR t = .error .badRegister := by
  simp [State.operandR, regIndex_bad h]

theorem State.operandRFlag_bad (s : State) {t : Byte} (h : 32 ≤ t.toNat) :
    s.operandRFlag t = .error .badRegister := by
  simp [State.operandRFlag, State.operandR_bad s h]

/-! ### Operand forms that read something unwritten -/

theorem State.operandsRRR_unwritten (s : State) (a b d : RegId) (h : ¬ s.RegReadable a ∨ ¬ s.RegReadable b) :
    s.operandsRRR (regByte a) (regByte b) (regByte d) = .error .unwrittenRead := by
  simp only [State.operandsRRR, regIndex_regByte, bind_ok_right]
  by_cases ha : s.RegReadable a
  · have hb : ¬ s.RegReadable b := h.resolve_left (fun hn => hn ha)
    simp [State.readReg_ok s ha, State.readReg_error s hb]
  · simp [State.readReg_error s ha]

theorem State.operandsRR_unwritten (s : State) (a b : RegId) (h : ¬ s.RegReadable a ∨ ¬ s.RegReadable b) :
    s.operandsRR (regByte a) (regByte b) = .error .unwrittenRead := by
  simp only [State.operandsRR, regIndex_regByte, bind_ok_right]
  by_cases ha : s.RegReadable a
  · have hb : ¬ s.RegReadable b := h.resolve_left (fun hn => hn ha)
    simp [State.readReg_ok s ha, State.readReg_error s hb]
  · simp [State.readReg_error s ha]

theorem State.operandR_unwritten (s : State) (t : RegId) (h : ¬ s.RegReadable t) :
    s.operandR (regByte t) = .error .unwrittenRead := by
  simp [State.operandR, State.readReg_error s h]

theorem State.operandRFlag_unwritten (s : State) (t : RegId) (h : ¬ s.RegReadable t ∨ ¬ s.FlagReadable) :
    s.operandRFlag (regByte t) = .error .unwrittenRead := by
  by_cases ht : s.RegReadable t
  · have hf : ¬ s.FlagReadable := h.resolve_left (fun hn => hn ht)
    simp [State.operandRFlag, State.operandR_ok s ht, State.readFlag_error s hf]
  · simp [State.operandRFlag, State.operandR_unwritten s t ht]

/-! ### What an operand form can fault with -/

/-- A computation of operands: its only faults are those of checks 2 and 3 of 40_step.md R103. -/
def OperandFaults {α : Type} (m : Except Fault α) : Prop :=
  ∀ f, m = .error f → f = .badRegister ∨ f = .unwrittenRead

theorem bind_eq_error {α β : Type} {m : Except Fault α} {k : α → Except Fault β} {f : Fault}
    (h : (m >>= k) = .error f) : m = .error f ∨ ∃ a, m = .ok a ∧ k a = .error f := by
  cases m with
  | error g => cases h; exact .inl rfl
  | ok a => exact .inr ⟨a, rfl, h⟩

theorem OperandFaults.bind {α β : Type} {m : Except Fault α} {k : α → Except Fault β} (hm : OperandFaults m)
    (hk : ∀ a, OperandFaults (k a)) : OperandFaults (m >>= k) := by
  intro f h
  rcases bind_eq_error h with h | ⟨a, -, h⟩
  · exact hm f h
  · exact hk a f h

theorem OperandFaults.ok {α : Type} (v : α) : OperandFaults (.ok v) := by
  intro f h; cases h

theorem regIndex_faults (field : Byte) : OperandFaults (regIndex field) := by
  intro f h
  unfold regIndex at h
  split at h <;> cases h
  exact .inl rfl

theorem Cell.read_faults {α : Type} (c : Cell α) (p : ResetPolicy) : OperandFaults (c.read p) := by
  intro f h
  unfold Cell.read at h
  split at h <;> cases h
  exact .inr rfl

theorem State.operandsRRR_faults (s : State) (a b d : Byte) : OperandFaults (s.operandsRRR a b d) :=
  (regIndex_faults a).bind fun _ => (regIndex_faults b).bind fun _ => (regIndex_faults d).bind fun _ =>
    (Cell.read_faults _ _).bind fun _ => (Cell.read_faults _ _).bind fun _ => .ok _

theorem State.operandsRR_faults (s : State) (a b : Byte) : OperandFaults (s.operandsRR a b) :=
  (regIndex_faults a).bind fun _ => (regIndex_faults b).bind fun _ =>
    (Cell.read_faults _ _).bind fun _ => (Cell.read_faults _ _).bind fun _ => .ok _

theorem State.operandR_faults (s : State) (t : Byte) : OperandFaults (s.operandR t) :=
  (regIndex_faults t).bind fun _ => Cell.read_faults _ _

theorem State.operandRFlag_faults (s : State) (t : Byte) : OperandFaults (s.operandRFlag t) :=
  (s.operandR_faults t).bind fun _ => (Cell.read_faults _ _).bind fun _ => .ok _

end Sys2Proof.Machine
end

