-- ==== Sys2Proof/Laws/Exec.lean ====
section
/-! SUPPORT. What an instruction and a step can do, said once: an instruction either takes a fault, which changes
nothing but the record, or completes with the writes its row of 10_state.md R22 allows. -/

namespace Sys2Proof.Machine

/-- What a completed instruction leaves of the state before it. -/
structure Completed (i : Instr) (s t : State) : Prop where
  cfg : t.cfg = s.cfg
  buffer : t.buffer = s.buffer
  fault : t.fault = s.fault
  outcome : ∀ f, t.outcome ≠ .faulted f
  regs : ∀ r, i.destField ≠ some (regByte r) → t.reg r = s.reg r
  dest : ∀ r, i.destField = some (regByte r) → ∃ v, t.reg r = Cell.holding v
  flag : t.flag = s.flag ∨ (i.op.format = .rr ∧ ∃ v, t.flag = Cell.holding v)
  rem : t.rem = s.rem ∨ (i.op = .div ∧ ∃ v, t.rem = Cell.holding v)
  heap : t.heap = s.heap ∨
    (i.op = .aloc ∧ ∃ n, t.heap = s.heap.growZero n ∧ s.heap.size + n ≤ s.cfg.heapMax)

/-- The end of an instruction: a fault is taken, or the checked state is committed. -/
theorem State.settle_cases {s : State} {r : Except Fault State} {o : StepOutcome} {t : State}
    (h : s.settle r o = .next t) :
    (∃ f, r = .error f ∧ t = s.raise f) ∨ (∃ u, r = .ok u ∧ t = u.withOutcome o) := by
  cases r with
  | error f => simp at h; exact .inl ⟨f, rfl, h.symm⟩
  | ok u => simp at h; exact .inr ⟨u, rfl, h.symm⟩

theorem State.settle_next (s : State) (r : Except Fault State) (o : StepOutcome) :
    ∃ t, s.settle r o = .next t := by
  cases r <;> exact ⟨_, rfl⟩

/-- Every instruction answers a next state, from every state. -/
theorem exec_next (i : Instr) (s : State) : ∃ t, exec i s = .next t := by
  cases i <;> first | exact ⟨_, rfl⟩ | exact State.settle_next _ _ _

theorem Completed.of_frame {i : Instr} {s t : State} (hc : t.cfg = s.cfg) (hb : t.buffer = s.buffer)
    (hf : t.fault = s.fault) (ho : ∀ f, t.outcome ≠ .faulted f) (hr : ∀ r, t.reg r = s.reg r)
    (hd : i.destField = none) (hfl : t.flag = s.flag) (hrem : t.rem = s.rem) (hh : t.heap = s.heap) :
    Completed i s t where
  cfg := hc
  buffer := hb
  fault := hf
  outcome := ho
  regs := fun r _ => hr r
  dest := fun r h => by rw [hd] at h; cases h
  flag := .inl hfl
  rem := .inl hrem
  heap := .inl hh

theorem Completed.of_writeReg {i : Instr} {s : State} {d : RegId} {v : Word} {n : Nat}
    (hd : i.destField = some (regByte d)) :
    Completed i s (((s.writeReg d v).advance n).withOutcome .continues) where
  cfg := rfl
  buffer := rfl
  fault := rfl
  outcome := by simp
  regs := fun r h => by
    have hne : d ≠ r := fun e => h (e ▸ hd)
    simp [State.writeReg_reg_of_ne s v hne]
  dest := fun r h => by
    have : r = d := regByte_injective (Option.some.inj (h.symm.trans hd))
    exact ⟨v, by simp [this]⟩
  flag := .inl rfl
  rem := .inl rfl
  heap := .inl rfl

theorem State.alu_completes {i : Instr} {s t : State} {a b d : Byte} {f : Word → Word → Word}
    (hd : i.destField = some d) (h : s.alu a b d f = .next t) : (∃ f, t = s.raise f) ∨ Completed i s t := by
  rcases State.settle_cases h with ⟨f, _, rfl⟩ | ⟨u, hu, rfl⟩
  · exact .inl ⟨f, rfl⟩
  · obtain ⟨⟨x, y, id⟩, h1, h2⟩ := bind_eq_ok hu
    obtain ⟨ia, ib, -, -, rfl, -, -, -, -⟩ := State.operandsRRR_inv h1
    cases h2
    exact .inr (Completed.of_writeReg hd)

theorem State.compare_completes {i : Instr} {s t : State} {a b : Byte} {rel : Word → Word → Bool}
    (hf : i.op.format = .rr) (hd : i.destField = none) (h : s.compare a b rel = .next t) :
    (∃ f, t = s.raise f) ∨ Completed i s t := by
  rcases State.settle_cases h with ⟨f, _, rfl⟩ | ⟨u, hu, rfl⟩
  · exact .inl ⟨f, rfl⟩
  · obtain ⟨⟨x, y⟩, h1, h2⟩ := bind_eq_ok hu
    cases h2
    refine .inr ⟨rfl, rfl, rfl, by simp, fun r _ => rfl, fun r h => ?_, .inr ⟨hf, _, rfl⟩, .inl rfl, .inl rfl⟩
    rw [hd] at h; cases h

theorem State.jumpIf_completes {i : Instr} {s t : State} {r : Byte} {p : Bool} (hd : i.destField = none)
    (h : s.jumpIf r p = .next t) : (∃ f, t = s.raise f) ∨ Completed i s t := by
  rcases State.settle_cases h with ⟨f, _, rfl⟩ | ⟨u, hu, rfl⟩
  · exact .inl ⟨f, rfl⟩
  · obtain ⟨⟨x, f⟩, h1, h2⟩ := bind_eq_ok hu
    cases h2
    refine .inr ?_
    by_cases hp : f = p <;> simp only [hp, if_true, if_false] <;>
      exact Completed.of_frame rfl rfl rfl (by simp) (fun _ => rfl) hd rfl rfl rfl

/-- Everything an instruction can do: take a fault, or complete. -/
theorem exec_cases {i : Instr} {s t : State} (h : exec i s = .next t) :
    (∃ f, t = s.raise f) ∨ Completed i s t := by
  cases i with
  | load d imm =>
    rcases State.settle_cases h with ⟨f, _, rfl⟩ | ⟨u, hu, rfl⟩
    · exact .inl ⟨f, rfl⟩
    · obtain ⟨id, h1, h2⟩ := bind_eq_ok hu
      cases h2
      exact .inr (Completed.of_writeReg (congrArg some (regIndex_ok h1)))
  | add a b d => exact State.alu_completes rfl h
  | sub a b d => exact State.alu_completes rfl h
  | mul a b d => exact State.alu_completes rfl h
  | div a b d =>
    rcases State.settle_cases h with ⟨f, _, rfl⟩ | ⟨u, hu, rfl⟩
    · exact .inl ⟨f, rfl⟩
    · obtain ⟨⟨x, y, id⟩, h1, hu⟩ := bind_eq_ok hu
      obtain ⟨⟨q, r⟩, h2, h3⟩ := bind_eq_ok hu
      obtain ⟨ia, ib, -, -, rfl, -, -, -, -⟩ := State.operandsRRR_inv h1
      cases h3
      have hw : Completed (.div a b (regByte id)) s (((s.writeReg id q).advance 4).withOutcome .continues) :=
        Completed.of_writeReg rfl
      exact .inr ⟨rfl, rfl, rfl, by simp, hw.regs, hw.dest, .inl rfl, .inr ⟨rfl, _, rfl⟩, .inl rfl⟩
  | halt =>
    cases h
    exact .inr (Completed.of_frame rfl rfl rfl (by simp) (fun _ => rfl) rfl rfl rfl rfl)
  | jmp t =>
    rcases State.settle_cases h with ⟨f, _, rfl⟩ | ⟨u, hu, rfl⟩
    · exact .inl ⟨f, rfl⟩
    · obtain ⟨x, -, h2⟩ := bind_eq_ok hu
      cases h2
      exact .inr (Completed.of_frame rfl rfl rfl (by simp) (fun _ => rfl) rfl rfl rfl rfl)
  | jmpf t =>
    rcases State.settle_cases h with ⟨f, _, rfl⟩ | ⟨u, hu, rfl⟩
    · exact .inl ⟨f, rfl⟩
    · obtain ⟨x, -, hu⟩ := bind_eq_ok hu
      obtain ⟨y, -, h2⟩ := bind_eq_ok hu
      cases h2
      exact .inr (Completed.of_frame rfl rfl rfl (by simp) (fun _ => rfl) rfl rfl rfl rfl)
  | jmpb t =>
    rcases State.settle_cases h with ⟨f, _, rfl⟩ | ⟨u, hu, rfl⟩
    · exact .inl ⟨f, rfl⟩
    · obtain ⟨x, -, hu⟩ := bind_eq_ok hu
      obtain ⟨y, -, h2⟩ := bind_eq_ok hu
      cases h2
      exact .inr (Completed.of_frame rfl rfl rfl (by simp) (fun _ => rfl) rfl rfl rfl rfl)
  | eq a b => exact State.compare_completes rfl rfl h
  | neq a b => exact State.compare_completes rfl rfl h
  | gt a b => exact State.compare_completes rfl rfl h
  | lt a b => exact State.compare_completes rfl rfl h
  | gtq a b => exact State.compare_completes rfl rfl h
  | ltq a b => exact State.compare_completes rfl rfl h
  | jeq t => exact State.jumpIf_completes rfl h
  | jneq t => exact State.jumpIf_completes rfl h
  | aloc t =>
    rcases State.settle_cases h with ⟨f, _, rfl⟩ | ⟨u, hu, rfl⟩
    · exact .inl ⟨f, rfl⟩
    · obtain ⟨x, -, hu⟩ := bind_eq_ok hu
      obtain ⟨n, hn, h2⟩ := bind_eq_ok hu
      cases h2
      exact .inr ⟨rfl, rfl, rfl, by simp, fun _ _ => rfl, fun _ h => by simp [Instr.destField] at h, .inl rfl,
        .inl rfl, .inr ⟨rfl, n, rfl, (State.allocCount_ok hn).2⟩⟩
  | nop =>
    cases h
    exact .inr (Completed.of_frame rfl rfl rfl (by simp) (fun _ => rfl) rfl rfl rfl rfl)
  | illegal =>
    cases h
    exact .inr (Completed.of_frame rfl rfl rfl (by simp) (fun _ => rfl) rfl rfl rfl rfl)

/-! ### The faults of an instruction -/

/-- The end of an instruction whose operand form comes first: a fault it leaves is an operand's or its own. -/
theorem State.settle_fault {α : Type} {s t : State} {m : Except Fault α} {k : α → Except Fault State} {o : StepOutcome}
    {f : Fault} (h : s.settle (m >>= k) o = .next t) (ht : t.outcome = .faulted f) (ho : ∀ g, o ≠ .faulted g)
    (hm : OperandFaults m) : f = .badRegister ∨ f = .unwrittenRead ∨ ∃ a, k a = .error f := by
  rcases State.settle_cases h with ⟨g, hg, rfl⟩ | ⟨u, -, rfl⟩
  · cases ht
    rcases bind_eq_error hg with hg | ⟨a, -, hg⟩
    · rcases hm f hg with h | h
      · exact .inl h
      · exact .inr (.inl h)
    · exact .inr (.inr ⟨a, hg⟩)
  · exact absurd ht (ho f)

/-- An instruction that was fetched whole never raises `Truncated`: its faults are the operand checks' and its own
(60_exceptions.md R212). -/
theorem exec_not_truncated {i : Instr} {s t : State} (h : exec i s = .next t) : t.outcome ≠ .faulted .truncated := by
  intro ht
  have done : ∀ {α : Type} {m : Except Fault α} {k : α → Except Fault State},
      s.settle (m >>= k) .continues = .next t → OperandFaults m → ∃ a, k a = .error .truncated := by
    intro α m k h hm
    rcases State.settle_fault h ht (fun _ => StepOutcome.noConfusion) hm with h | h | h
    · cases h
    · cases h
    · exact h
  cases i with
  | load d imm => obtain ⟨_, h⟩ := done h (regIndex_faults d); cases h
  | add a b d | sub a b d | mul a b d => obtain ⟨_, h⟩ := done h (s.operandsRRR_faults a b d); cases h
  | div a b d =>
    obtain ⟨⟨x, y, id⟩, h⟩ := done h (s.operandsRRR_faults a b d)
    rcases bind_eq_error h with h | ⟨_, -, h⟩
    · rcases aluDiv_faults h with h | h <;> cases h
    · cases h
  | halt | nop | illegal => cases h; cases ht
  | jmp r => obtain ⟨_, h⟩ := done h (s.operandR_faults r); cases h
  | jmpf r | jmpb r =>
    obtain ⟨_, h⟩ := done h (s.operandR_faults r)
    rcases bind_eq_error h with h | ⟨_, -, h⟩
    · cases relativeTarget_faults h
    · cases h
  | eq a b | neq a b | gt a b | lt a b | gtq a b | ltq a b =>
    obtain ⟨_, h⟩ := done h (s.operandsRR_faults a b); cases h
  | jeq r | jneq r => obtain ⟨⟨x, f⟩, h⟩ := done h (s.operandRFlag_faults r); cases h
  | aloc r =>
    obtain ⟨_, h⟩ := done h (s.operandR_faults r)
    rcases bind_eq_error h with h | ⟨_, -, h⟩
    · rcases State.allocCount_faults h with h | h <;> cases h
    · cases h

/-! ### The step -/

theorem step_of_fault {s : State} {r : FaultRecord} (h : s.fault = some r) : step s = .next (s.stepFaulted r) := by
  simp [step, h]

theorem step_of_error {s : State} {e : DecodeError} (h : s.fault = none) (hf : s.fetch = .error e) :
    step s = .next (s.stepNoInstr e) := by
  simp [step, h, hf]

theorem step_of_fetch {s : State} {i : Instr} (h : s.fault = none) (hf : s.fetch = .ok i) : step s = exec i s := by
  simp [step, h, hf]

/-- Everything a step can do: report the recorded fault, halt at the end of the buffer, take a fault, or complete the
fetched instruction. -/
theorem step_cases {s t : State} (h : step s = .next t) :
    (∃ r, s.fault = some r ∧ t = s.stepFaulted r) ∨
    (s.fault = none ∧ s.fetch = .error .noOpcode ∧ t = s.withOutcome (.halted .endOfBuffer)) ∨
    (s.fault = none ∧ s.fetch ≠ .error .noOpcode ∧ ∃ f, t = s.raise f) ∨
    (s.fault = none ∧ ∃ i, s.fetch = .ok i ∧ exec i s = .next t ∧ Completed i s t) := by
  cases hf : s.fault with
  | some r =>
    rw [step_of_fault hf] at h
    cases h
    exact .inl ⟨r, rfl, rfl⟩
  | none =>
    cases hi : s.fetch with
    | error e =>
      rw [step_of_error hf hi] at h
      cases h
      cases e with
      | noOpcode => exact .inr (.inl ⟨rfl, rfl, rfl⟩)
      | truncated => exact .inr (.inr (.inl ⟨rfl, by simp, _, rfl⟩))
    | ok i =>
      rw [step_of_fetch hf hi] at h
      rcases exec_cases h with ⟨f, rfl⟩ | hc
      · exact .inr (.inr (.inl ⟨rfl, by simp, f, rfl⟩))
      · exact .inr (.inr (.inr ⟨rfl, i, rfl, h, hc⟩))

/-! ### The fetch -/

theorem Op.length_le (op : Op) : op.length ≤ 4 := by
  cases op <;> decide

theorem Op.length_pos (op : Op) : 1 ≤ op.length := by
  cases op <;> decide

theorem State.fetch_of_decode {s : State} {i : Instr} {rest : List Byte}
    (h : decode s.cfg (s.buffer.window s.pc.toNat 4) = .ok (i, rest)) : s.fetch = .ok i := by
  simp [State.fetch, h]

theorem State.fetch_ok {s : State} {i : Instr} (h : s.fetch = .ok i) :
    ∃ rest, decode s.cfg (s.buffer.window s.pc.toNat 4) = .ok (i, rest) := by
  unfold State.fetch at h
  split at h
  · cases h
    exact ⟨_, by assumption⟩
  · cases h

theorem Memory.window_cons {m : Memory} {a : Nat} {b : Byte} (n : Nat) (h : m.read a = some b) :
    m.window a (n + 1) = b :: m.window (a + 1) n := by
  simp [Memory.window, h]

/-- Bytes that stand in the store from an address on begin the window there. -/
theorem Memory.window_of_bytes {m : Memory} {a : Nat} (n : Nat) {bs : List Byte} (hn : bs.length ≤ n)
    (h : ∀ k, k < bs.length → m.read (a + k) = bs[k]?) : ∃ rest, m.window a n = bs ++ rest := by
  induction bs generalizing a n with
  | nil => exact ⟨_, rfl⟩
  | cons b bs ih =>
    cases n with
    | zero => simp at hn
    | succ n =>
      have h0 : m.read a = some b := by simpa using h 0 (by simp)
      obtain ⟨r, hr⟩ := ih (a := a + 1) n (by simpa using hn) (fun k hk => by
        have := h (k + 1) (by simpa using hk)
        simpa [Nat.add_assoc, Nat.add_comm 1 k] using this)
      exact ⟨r, by rw [Memory.window_cons n h0, hr]; rfl⟩

/-- A fetch finds no opcode byte exactly at the end of the buffer (40_step.md R100). -/
theorem State.fetch_noOpcode {s : State} : s.fetch = .error .noOpcode ↔ s.buffer.size ≤ s.pc.toNat := by
  have hw : s.buffer.window s.pc.toNat 4 = [] ↔ s.buffer.size ≤ s.pc.toNat := by
    rw [← List.length_eq_zero_iff, Memory.window_length]
    omega
  rw [← hw, State.fetch]
  cases hl : s.buffer.window s.pc.toNat 4 with
  | nil => simp [decode]
  | cons ob bs =>
    simp only [decode]
    cases hd : decodeOperands (fromByte s.cfg ob) bs <;> simp

/-- The opcode byte of a state whose pc lies in the buffer. -/
theorem State.opcodeByte_of_read {s : State} {ob : Byte} (h : s.buffer.read s.pc.toNat = some ob) :
    s.opcodeByte = ob := by
  simp [State.opcodeByte, h]

/-- Fault entry, with the opcode byte that stands at pc. -/
theorem State.raise_of_read {s : State} {ob : Byte} (f : Fault) (h : s.buffer.read s.pc.toNat = some ob) :
    s.raise f = { s with
      fault := some { cause := f, fpc := s.pc, opbyte := ob }
      outcome := .faulted f } := by
  simp [State.raise, State.opcodeByte_of_read h]

theorem State.read_opcodeByte {s : State} (h : s.pc.toNat < s.buffer.size) :
    s.buffer.read s.pc.toNat = some s.opcodeByte := by
  rw [Memory.read_of_lt _ h, State.opcodeByte, Memory.read_of_lt _ h]
  rfl

end Sys2Proof.Machine
end

