-- ==== Sys2Proof/Laws/PerInstr.lean ====
section
/-! SUPPORT. Per-instruction facts about the syntax, one lemma per constructor of `Instr`. -/

namespace Sys2Proof.Laws.EncodingLength

/-- The encoding of an instruction is as long as its operation says (30_encoding.md R65). -/
def Statement (i : Instr) : Prop :=
  ∀ (c : Config) (bs : List Byte), encode c i = some bs → bs.length = i.op.length

theorem of_operandBytes (i : Instr) : Statement i := by
  intro c bs h
  obtain ⟨ob, -, rfl⟩ := Option.map_eq_some_iff.1 h
  exact operandBytes_length i

theorem load (d : Byte) (imm : Imm16) : Statement (.load d imm) := of_operandBytes _
theorem add (a b d : Byte) : Statement (.add a b d) := of_operandBytes _
theorem sub (a b d : Byte) : Statement (.sub a b d) := of_operandBytes _
theorem mul (a b d : Byte) : Statement (.mul a b d) := of_operandBytes _
theorem div (a b d : Byte) : Statement (.div a b d) := of_operandBytes _
theorem halt : Statement (.halt) := of_operandBytes _
theorem jmp (t : Byte) : Statement (.jmp t) := of_operandBytes _
theorem jmpf (t : Byte) : Statement (.jmpf t) := of_operandBytes _
theorem jmpb (t : Byte) : Statement (.jmpb t) := of_operandBytes _
theorem eq (a b : Byte) : Statement (.eq a b) := of_operandBytes _
theorem neq (a b : Byte) : Statement (.neq a b) := of_operandBytes _
theorem gt (a b : Byte) : Statement (.gt a b) := of_operandBytes _
theorem lt (a b : Byte) : Statement (.lt a b) := of_operandBytes _
theorem gtq (a b : Byte) : Statement (.gtq a b) := of_operandBytes _
theorem ltq (a b : Byte) : Statement (.ltq a b) := of_operandBytes _
theorem jeq (t : Byte) : Statement (.jeq t) := of_operandBytes _
theorem jneq (t : Byte) : Statement (.jneq t) := of_operandBytes _
theorem aloc (t : Byte) : Statement (.aloc t) := of_operandBytes _
theorem nop : Statement (.nop) := of_operandBytes _
theorem illegal : Statement (.illegal) := of_operandBytes _

end Sys2Proof.Laws.EncodingLength
end

