-- ==== Sys2Proof/Laws/Relations.lean ====
section
/-! SUPPORT. Two relations between states that one instruction keeps: states that the snapshot shows alike, and a state
under the `Unwritten` policy beside its `Zero`-policy twin. The outcome field of a state is read by no instruction. -/

namespace Sys2Proof.Machine

/-! ### The outcome field -/

/-- No instruction reads what the last step returned. -/
theorem exec_outcome (i : Instr) (s : State) (o : StepOutcome) :
    exec i { s with outcome := o } = exec i s := by
  cases i <;> first | rfl | skip
  all_goals simp only [exec, execLoad, execAdd, execSub, execMul, execDiv, execJmp, execJmpf, execJmpb, execEq, execNeq,
    execGt, execLt, execGtq, execLtq, execJeq, execJneq, execAloc, State.alu, State.compare, State.jumpIf]
  case load d imm =>
    rcases regIndex_cases d with ⟨i, _, h⟩ | ⟨_, h⟩ <;> simp [h] <;> rfl
  case add a b d | sub a b d | mul a b d =>
    change State.settle _ (s.operandsRRR a b d >>= _) _ = _
    cases s.operandsRRR a b d <;> rfl
  case div a b d =>
    change State.settle _ (s.operandsRRR a b d >>= _) _ = _
    cases s.operandsRRR a b d with
    | error f => rfl
    | ok v =>
      obtain ⟨x, y, id⟩ := v
      simp only [bind_ok_right]
      cases aluDiv x y <;> rfl
  case jmp t =>
    change State.settle _ (s.operandR t >>= _) _ = _
    cases s.operandR t <;> rfl
  case jmpf t | jmpb t =>
    change State.settle _ (s.operandR t >>= _) _ = _
    cases s.operandR t with
    | error f => rfl
    | ok x =>
      simp only [bind_ok_right]
      generalize relativeTarget _ = r
      cases r <;> rfl
  case eq a b | neq a b | gt a b | lt a b | gtq a b | ltq a b =>
    change State.settle _ (s.operandsRR a b >>= _) _ = _
    cases s.operandsRR a b <;> rfl
  case jeq t | jneq t =>
    change State.settle _ (s.operandRFlag t >>= _) _ = _
    cases s.operandRFlag t with
    | error f => rfl
    | ok v =>
      obtain ⟨x, f⟩ := v
      cases f <;> rfl
  case aloc t =>
    change State.settle _ (s.operandR t >>= _) _ = _
    cases s.operandR t with
    | error f => rfl
    | ok x =>
      simp only [bind_ok_right]
      change State.settle _ (s.allocCount x >>= _) _ = _
      cases s.allocCount x <;> rfl

/-! ### States that the snapshot shows alike -/

/-- Two states of one configuration that the snapshot shows alike, field by field. -/
structure State.Alike (s t : State) : Prop where
  cfg : s.cfg = t.cfg
  regs : ∀ r, (s.reg r).shown s.cfg.resetPolicy = (t.reg r).shown s.cfg.resetPolicy
  pc : s.pc = t.pc
  flag : s.flag.shown s.cfg.resetPolicy = t.flag.shown s.cfg.resetPolicy
  rem : s.rem.shown s.cfg.resetPolicy = t.rem.shown s.cfg.resetPolicy
  heap : s.heap = t.heap
  buffer : s.buffer = t.buffer
  fault : s.fault = t.fault

/-- The relation is that of the snapshot. -/
theorem alike_iff {s t : State} : (s.cfg = t.cfg ∧ snapshot s = snapshot t) ↔ State.Alike s t := by
  constructor
  · rintro ⟨hc, h⟩
    simp only [snapshot, Snapshot.mk.injEq] at h
    obtain ⟨h1, h2, h3, h4, h5, h6, h7⟩ := h
    refine ⟨hc, ?_, h2, by rw [h3, hc], by rw [h4, hc], h5, h6, h7⟩
    intro r
    have := congrArg (fun v : Vector (Option Word) 32 => v[r.val]) h1
    simpa [State.reg, hc] using this
  · intro h
    refine ⟨h.cfg, ?_⟩
    simp only [snapshot, Snapshot.mk.injEq]
    refine ⟨?_, h.pc, by rw [h.flag, h.cfg], by rw [h.rem, h.cfg], h.heap, h.buffer, h.fault⟩
    apply Vector.ext
    intro i hi
    have := h.regs ⟨i, hi⟩
    rw [h.cfg] at this
    simpa [State.reg, h.cfg] using this

/-- Cells shown alike are read alike. -/
theorem Cell.read_of_shown {α : Type} {c d : Cell α} {p} (h : c.shown p = d.shown p) : c.read p = d.read p := by
  unfold Cell.shown Cell.read at *
  split at h <;> split at h <;> simp_all

theorem State.Alike.readReg {s t} (h : State.Alike s t) (r) : s.readReg r = t.readReg r := by
  unfold State.readReg; rw [← h.cfg]; exact Cell.read_of_shown (h.regs r)
theorem State.Alike.readFlag {s t} (h : State.Alike s t) : s.readFlag = t.readFlag := by
  unfold State.readFlag; rw [← h.cfg]; exact Cell.read_of_shown h.flag
theorem State.Alike.operandsRRR {s t} (h : State.Alike s t) (a b d) : s.operandsRRR a b d = t.operandsRRR a b d := by
  unfold State.operandsRRR; simp only [h.readReg]
theorem State.Alike.operandsRR {s t} (h : State.Alike s t) (a b) : s.operandsRR a b = t.operandsRR a b := by
  unfold State.operandsRR; simp only [h.readReg]
theorem State.Alike.operandR {s t} (h : State.Alike s t) (a) : s.operandR a = t.operandR a := by
  unfold State.operandR; simp only [h.readReg]
theorem State.Alike.operandRFlag {s t} (h : State.Alike s t) (a) : s.operandRFlag a = t.operandRFlag a := by
  unfold State.operandRFlag; simp only [h.operandR, h.readFlag]

theorem State.Alike.raise {s t} (h : State.Alike s t) (f) : State.Alike (s.raise f) (t.raise f) := by
  refine ⟨h.cfg, h.regs, h.pc, h.flag, h.rem, h.heap, h.buffer, ?_⟩
  simp [State.opcodeByte, h.pc, h.buffer]
theorem State.Alike.withOutcome {s t} (h : State.Alike s t) (o) : State.Alike (s.withOutcome o) (t.withOutcome o) :=
  ⟨h.cfg, h.regs, h.pc, h.flag, h.rem, h.heap, h.buffer, h.fault⟩
theorem State.Alike.setPc {s t} (h : State.Alike s t) (p) : State.Alike (s.setPc p) (t.setPc p) :=
  ⟨h.cfg, h.regs, rfl, h.flag, h.rem, h.heap, h.buffer, h.fault⟩
theorem State.Alike.advance {s t} (h : State.Alike s t) (p) : State.Alike (s.advance p) (t.advance p) :=
  ⟨h.cfg, h.regs, by simp [h.pc], h.flag, h.rem, h.heap, h.buffer, h.fault⟩
theorem State.Alike.writeFlag {s t} (h : State.Alike s t) (p) : State.Alike (s.writeFlag p) (t.writeFlag p) :=
  ⟨h.cfg, h.regs, h.pc, rfl, h.rem, h.heap, h.buffer, h.fault⟩
theorem State.Alike.writeRem {s t} (h : State.Alike s t) (p) : State.Alike (s.writeRem p) (t.writeRem p) :=
  ⟨h.cfg, h.regs, h.pc, h.flag, rfl, h.heap, h.buffer, h.fault⟩
theorem State.Alike.writeReg {s t} (h : State.Alike s t) (i v) : State.Alike (s.writeReg i v) (t.writeReg i v) := by
  refine ⟨h.cfg, ?_, h.pc, h.flag, h.rem, h.heap, h.buffer, h.fault⟩
  intro r
  rw [State.writeReg_reg, State.writeReg_reg]
  split
  · rfl
  · exact h.regs r
theorem State.Alike.growHeap {s t} (h : State.Alike s t) (n) : State.Alike (s.growHeap n) (t.growHeap n) :=
  ⟨h.cfg, h.regs, h.pc, h.flag, h.rem, by simp [h.heap], h.buffer, h.fault⟩

/-- Two results that are the same fault or states shown alike. -/
def ResultsAlike : Except Fault State → Except Fault State → Prop
  | .ok s, .ok t => State.Alike s t
  | .error f, .error g => f = g
  | _, _ => False

theorem State.Alike.settle {s t : State} (h : State.Alike s t) {r r' : Except Fault State} (hr : ResultsAlike r r')
    (o) {s'} (hs : s.settle r o = .next s') :
    ∃ t', t.settle r' o = .next t' ∧ s'.outcome = t'.outcome ∧ State.Alike s' t' := by
  cases r <;> cases r' <;> simp only [ResultsAlike] at hr
  · subst hr; simp at hs; subst hs; exact ⟨_, rfl, rfl, h.raise _⟩
  · simp at hs; subst hs; exact ⟨_, rfl, rfl, hr.withOutcome o⟩

theorem resultsAlike_bind {α} {m m' : Except Fault α} (hm : m = m') {k k' : α → Except Fault State}
    (hk : ∀ a, ResultsAlike (k a) (k' a)) :
    ResultsAlike (m >>= k) (m' >>= k') := by
  subst hm
  cases m with
  | error f => rfl
  | ok a => exact hk a

theorem resultsAlike_ok {s t : State} (h : State.Alike s t) : ResultsAlike (.ok s) (.ok t) := h

/-- An instruction takes states shown alike to states shown alike, with one outcome. -/
theorem exec_alike {s t : State} (h : State.Alike s t) (i : Instr) {s'} (hs : exec i s = .next s') :
   ∃ t', exec i t = .next t' ∧ s'.outcome = t'.outcome ∧ State.Alike s' t' := by
  cases i
  case load d imm => exact h.settle (resultsAlike_bind rfl (fun a => resultsAlike_ok ((h.writeReg a _).advance 4))) _ hs
  case add a b d | sub a b d | mul a b d =>
    exact h.settle (resultsAlike_bind (h.operandsRRR a b d) (fun ⟨x, y, id⟩ => resultsAlike_ok ((h.writeReg id _).advance 4))) _ hs
  case div a b d =>
    exact h.settle (resultsAlike_bind (h.operandsRRR a b d) (fun ⟨x, y, id⟩ =>
      resultsAlike_bind rfl (fun ⟨q, r⟩ => resultsAlike_ok (((h.writeReg id _).writeRem _).advance 4)))) _ hs
  case halt | nop | illegal => exact h.settle (r := .ok _) (r' := .ok _) (h.advance 1) _ hs
  case jmp r => exact h.settle (resultsAlike_bind (h.operandR r) (fun x => resultsAlike_ok (h.setPc x))) _ hs
  case jmpf r | jmpb r =>
    exact h.settle (resultsAlike_bind (h.operandR r) (fun x =>
      resultsAlike_bind (by rw [h.pc]) (fun y => resultsAlike_ok (h.setPc y)))) _ hs
  case eq a b | neq a b | gt a b | lt a b | gtq a b | ltq a b =>
    exact h.settle (resultsAlike_bind (h.operandsRR a b) (fun ⟨x, y⟩ => resultsAlike_ok ((h.writeFlag _).advance 3))) _ hs
  case jeq r | jneq r =>
    exact h.settle (resultsAlike_bind (h.operandRFlag r) (fun ⟨x, f⟩ => by
      cases f <;> first | exact h.setPc x | exact h.advance 2)) _ hs
  case aloc r =>
    exact h.settle (resultsAlike_bind (h.operandR r) (fun x =>
      resultsAlike_bind (by unfold State.allocCount; rw [h.cfg, h.heap]) (fun y => resultsAlike_ok ((h.growHeap y).advance 2)))) _ hs

/-! ### The twin under the `Zero` policy -/

theorem zeroTwin_reg (s : State) (r) : s.zeroTwin.reg r = (s.reg r).zeroTwin 0#32 := by
  simp [State.zeroTwin, State.reg]

theorem zeroTwin_read {α} {c : Cell α} {z : α} {v} (h : c.read .unwritten = .ok v) :
    (c.zeroTwin z).read .zero = .ok v := by
  obtain ⟨h1, rfl⟩ := Cell.read_ok h
  simp at h1
  simp [Cell.zeroTwin, h1, Cell.read]

theorem zeroTwin_raise (s : State) (f) : s.zeroTwin.raise f = (s.raise f).zeroTwin := rfl
theorem zeroTwin_withOutcome (s : State) (o) : s.zeroTwin.withOutcome o = (s.withOutcome o).zeroTwin := rfl
theorem zeroTwin_setPc (s : State) (o) : s.zeroTwin.setPc o = (s.setPc o).zeroTwin := rfl
theorem zeroTwin_advance (s : State) (o) : s.zeroTwin.advance o = (s.advance o).zeroTwin := rfl
theorem zeroTwin_writeFlag (s : State) (o) : s.zeroTwin.writeFlag o = (s.writeFlag o).zeroTwin := rfl
theorem zeroTwin_writeRem (s : State) (o) : s.zeroTwin.writeRem o = (s.writeRem o).zeroTwin := rfl
theorem zeroTwin_growHeap (s : State) (o) : s.zeroTwin.growHeap o = (s.growHeap o).zeroTwin := rfl
theorem zeroTwin_writeReg (s : State) (i v) : s.zeroTwin.writeReg i v = (s.writeReg i v).zeroTwin := by
  simp only [State.writeReg, State.zeroTwin, State.mk.injEq, true_and, and_true]
  apply Vector.ext
  intro j hj
  simp [Vector.getElem_set]
  split <;> rfl

/-- A computation that raises `UnwrittenRead` or has the same result as its twin. -/
def Sim {α} (m m' : Except Fault α) : Prop := m = .error .unwrittenRead ∨ m' = m

theorem sim_bind {α β} {m m' : Except Fault α} (hm : Sim m m') {k k' : α → Except Fault β}
    (hk : ∀ a, Sim (k a) (k' a)) :
    Sim (m >>= k) (m' >>= k') := by
  rcases hm with rfl | rfl
  · exact .inl rfl
  · cases m' with
    | error f => exact .inr rfl
    | ok a => exact hk a

theorem sim_refl {α} (m : Except Fault α) : Sim m m := .inr rfl

theorem sim_readReg {s : State} (h : s.cfg.resetPolicy = .unwritten) (r) :
    Sim (s.readReg r) (s.zeroTwin.readReg r) := by
  unfold State.readReg
  rw [h, zeroTwin_reg]
  cases hc : (s.reg r).read .unwritten with
  | ok v => exact .inr (zeroTwin_read hc)
  | error f =>
    unfold Cell.read at hc; split at hc
    · cases hc
    · cases hc; exact .inl rfl

theorem sim_readFlag {s : State} (h : s.cfg.resetPolicy = .unwritten) : Sim (s.readFlag) (s.zeroTwin.readFlag) := by
  unfold State.readFlag
  rw [h]
  cases hc : s.flag.read .unwritten with
  | ok v => exact .inr (zeroTwin_read (z := false) hc)
  | error f =>
    unfold Cell.read at hc; split at hc
    · cases hc
    · cases hc; exact .inl rfl

theorem sim_operandsRRR {s : State} (h : s.cfg.resetPolicy = .unwritten) (a b d) :
    Sim (s.operandsRRR a b d) (s.zeroTwin.operandsRRR a b d) :=
  sim_bind (sim_refl _) fun ia => sim_bind (sim_refl _) fun ib => sim_bind (sim_refl _) fun _ =>
  sim_bind (sim_readReg h ia) fun _ => sim_bind (sim_readReg h ib) fun _ => sim_refl _
theorem sim_operandsRR {s : State} (h : s.cfg.resetPolicy = .unwritten) (a b) :
    Sim (s.operandsRR a b) (s.zeroTwin.operandsRR a b) :=
  sim_bind (sim_refl _) fun ia => sim_bind (sim_refl _) fun ib =>
  sim_bind (sim_readReg h ia) fun _ => sim_bind (sim_readReg h ib) fun _ => sim_refl _
theorem sim_operandR {s : State} (h : s.cfg.resetPolicy = .unwritten) (a) :
    Sim (s.operandR a) (s.zeroTwin.operandR a) :=
  sim_bind (sim_refl _) fun ia => sim_readReg h ia
theorem sim_operandRFlag {s : State} (h : s.cfg.resetPolicy = .unwritten) (a) :
    Sim (s.operandRFlag a) (s.zeroTwin.operandRFlag a) :=
  sim_bind (sim_operandR h a) fun _ => sim_bind (sim_readFlag h) fun _ => sim_refl _

theorem sim_settle {α} {s t : State} {m m' : Except Fault α} (hm : Sim m m') {k k' : α → Except Fault State}
    (hk : ∀ a, k' a = (k a).map State.zeroTwin) (o) (hs : s.settle (m >>= k) o = .next t)
    (hne : t.outcome ≠ .faulted .unwrittenRead) :
    s.zeroTwin.settle (m' >>= k') o = .next t.zeroTwin := by
  rcases hm with rfl | rfl
  · simp at hs; subst hs; exact absurd rfl hne
  · cases m' with
    | error f => simp at hs; subst hs; rfl
    | ok a =>
      simp at hs ⊢
      rw [hk a]
      cases h : k a with
      | error f => rw [h] at hs; simp at hs; subst hs; rfl
      | ok u => rw [h] at hs; simp at hs; subst hs; rfl

/-- An instruction that raises no `UnwrittenRead` runs on the twin as on the state. -/
theorem exec_zeroTwin {s t : State} (h : s.cfg.resetPolicy = .unwritten) (i : Instr) (hs : exec i s = .next t)
    (hne : t.outcome ≠ .faulted .unwrittenRead) :
    exec i s.zeroTwin = .next t.zeroTwin := by
  cases i
  case load d imm => exact sim_settle (sim_refl _) (fun a => by rw [zeroTwin_writeReg]; rfl) _ hs hne
  case add a b d | sub a b d | mul a b d =>
    exact sim_settle (sim_operandsRRR h a b d) (fun ⟨x, y, id⟩ => by simp only []; rw [zeroTwin_writeReg]; rfl) _ hs hne
  case div a b d =>
    exact sim_settle (sim_operandsRRR h a b d) (fun ⟨x, y, id⟩ => by
      simp only []
      cases aluDiv x y with
      | error f => rfl
      | ok v => simp only [bind_ok_right]; rw [zeroTwin_writeReg]; rfl) _ hs hne
  case halt | nop | illegal => cases hs; rfl
  case jmp r => exact sim_settle (sim_operandR h r) (fun _ => rfl) _ hs hne
  case jmpf r | jmpb r =>
    refine sim_settle (sim_operandR h r) (fun x => ?_) _ hs hne
    generalize hg : relativeTarget _ = g
    cases g with
    | error f => simp only [show s.zeroTwin.pc = s.pc from rfl] at hg; rw [hg]; rfl
    | ok v => simp only [show s.zeroTwin.pc = s.pc from rfl] at hg; rw [hg]; rfl
  case eq a b | neq a b | gt a b | lt a b | gtq a b | ltq a b =>
    exact sim_settle (sim_operandsRR h a b) (fun _ => rfl) _ hs hne
  case jeq r | jneq r => exact sim_settle (sim_operandRFlag h r) (fun ⟨x, f⟩ => by cases f <;> rfl) _ hs hne
  case aloc r =>
    refine sim_settle (sim_operandR h r) (fun x => ?_) _ hs hne
    have : s.zeroTwin.allocCount x = s.allocCount x := rfl
    rw [this]
    cases s.allocCount x <;> rfl

end Sys2Proof.Machine
end

