-- ==== Sys2Proof/Tests/Slice0.lean ====
section
/-! SUPPORT. The model's own tests. Expected values are those of spec/95_test_vectors.md (the row is named), or of the
rule named. The smoke tests of WellFormed, the decodings of every constructor, one step per instruction, the assembler,
and for every obligation with hypotheses a witness that meets them together. -/

namespace Sys2Proof.Tests

open Sys2Proof.Machine

/-! ### Helpers -/

/-- The state after reset under a configuration, with bytes appended at offset 0 and registers written. -/
def machine (c : Config) (bs : List Byte) (regs : List (RegId × Int)) : State :=
  regs.foldl (fun s r => s.writeReg r.1 (u32 r.2))
    { State.resetWith c with buffer := Memory.append { size := 0, cells := [] } bs }

/-- The state after one step. -/
def after (s : State) : State :=
  match step s with
  | .next t => t
  | .fault _ => s
  | .refused _ => s

/-- A register as the snapshot shows it, as a signed value. -/
def value (s : State) (i : RegId) : Option Int := ((s.reg i).shown s.cfg.resetPolicy).map s32

/-- The remainder register as the snapshot shows it. -/
def remValue (s : State) : Option Nat := (s.rem.shown s.cfg.resetPolicy).map BitVec.toNat

/-- The flag as the snapshot shows it. -/
def flagValue (s : State) : Option Bool := s.flag.shown s.cfg.resetPolicy

/-- The reference configuration with `NOP_BYTE = 0x12`. -/
def withNop : Config := { Config.reference with nopByte := some 0x12 }

/-- The fault record's cause, offset and opcode byte. -/
def recorded (s : State) : Option (Fault × Nat × Byte) := s.fault.map (fun r => (r.cause, r.fpc.toNat, r.opbyte))

/-! ### WellFormed: one ill-formed term for each check (00_scope.md R8, 30_encoding.md R61, R63, R82, R87) -/

theorem test_wf_reference : Config.reference.wf = true ∧ Config.boot.wf = true ∧ withNop.wf = true := by decide

theorem test_wf_map_repeats :
    { Config.reference with opcodeMap := defaultOpcodeMap.set 1 .load }.wf = false := by decide

theorem test_wf_map_holds_nop :
    { Config.reference with opcodeMap := defaultOpcodeMap.set 1 .nop }.opcodeMapOk = false := by decide

theorem test_wf_map_holds_illegal :
    { Config.reference with opcodeMap := defaultOpcodeMap.set 1 .illegal }.opcodeMapOk = false := by decide

theorem test_wf_nop_byte_in_map : { Config.reference with nopByte := some 0x11 }.wf = false := by decide

theorem test_wf_illegal_byte_in_map : { Config.reference with illegalEncodeByte := 0x11 }.wf = false := by decide

theorem test_wf_illegal_byte_is_nop : { Config.reference with nopByte := some 0xFF }.wf = false := by decide

theorem test_wf_program_bytes_zero : { Config.reference with maxProgramBytes := 0 }.wf = false := by decide

theorem test_wf_program_bytes_large :
    { Config.reference with maxProgramBytes := 2 ^ 31 }.wf = false ∧
    { Config.reference with maxProgramBytes := 2 ^ 31 - 1 }.wf = true := by decide

theorem test_wf_nop_without_byte : Instr.wf .reference .nop = false ∧ Instr.wf withNop .nop = true := by decide

theorem test_wf_operand_range :
    Operand.wf (.int 32768) = false ∧ Operand.wf (.int (-32769)) = false ∧ Operand.wf (.int (-32768)) = true := by decide

theorem test_wf_opcode_operand :
    AsmInstr.wf .reference { op := .add, operands := [.reg 0, .opcode .add] } = false ∧
    AsmInstr.wf .reference { op := .nop, operands := [] } = false := by decide

/-! ### Decoding: every constructor, words from the encodings of 41_load.md to 45_control_heap.md -/

theorem test_decode_load : decode .reference [0x00, 0x05, 0x80, 0x01, 0x77] = .ok (.load 5 0x8001, [0x77]) := rfl
theorem test_decode_add : decode .reference [0x01, 0x02, 0x03, 0x04] = .ok (.add 2 3 4, []) := rfl
theorem test_decode_sub : decode .reference [0x02, 0x02, 0x03, 0x04] = .ok (.sub 2 3 4, []) := rfl
theorem test_decode_mul : decode .reference [0x03, 0x02, 0x03, 0x04] = .ok (.mul 2 3 4, []) := rfl
theorem test_decode_div : decode .reference [0x04, 0x02, 0x03, 0xFF] = .ok (.div 2 3 255, []) := rfl
theorem test_decode_halt : decode .reference [0x05, 0x02] = .ok (.halt, [0x02]) := rfl
theorem test_decode_jmp : decode .reference [0x06, 0x1F, 0x02] = .ok (.jmp 31, [0x02]) := rfl
theorem test_decode_jmpf : decode .reference [0x07, 0x1F] = .ok (.jmpf 31, []) := rfl
theorem test_decode_jmpb : decode .reference [0x08, 0x1F] = .ok (.jmpb 31, []) := rfl
theorem test_decode_eq : decode .reference [0x09, 0x02, 0x03] = .ok (.eq 2 3, []) := rfl
theorem test_decode_neq : decode .reference [0x0A, 0x02, 0x03] = .ok (.neq 2 3, []) := rfl
theorem test_decode_gt : decode .reference [0x0B, 0x02, 0x03] = .ok (.gt 2 3, []) := rfl
theorem test_decode_lt : decode .reference [0x0C, 0x02, 0x03] = .ok (.lt 2 3, []) := rfl
theorem test_decode_gtq : decode .reference [0x0D, 0x02, 0x03] = .ok (.gtq 2 3, []) := rfl
theorem test_decode_ltq : decode .reference [0x0E, 0x02, 0x03] = .ok (.ltq 2 3, []) := rfl
theorem test_decode_jeq : decode .reference [0x0F, 0x03, 0x02] = .ok (.jeq 3, [0x02]) := rfl
theorem test_decode_jneq : decode .reference [0x10, 0x03, 0x02] = .ok (.jneq 3, [0x02]) := rfl
theorem test_decode_aloc : decode .reference [0x11, 0x07] = .ok (.aloc 7, []) := rfl
/-- X19. -/
theorem test_decode_nop : decode withNop [0x12] = .ok (.nop, []) := rfl
/-- X19 to X21. -/
theorem test_decode_illegal :
    [[0x12], [0x80], [0xFF]].map (decode .reference) = List.replicate 3 (.ok (.illegal, [])) := rfl
theorem test_decode_rejects :
    decode .reference [] = .error .noOpcode ∧ decode .reference [0x01, 0x02, 0x03] = .error .truncated := ⟨rfl, rfl⟩

/-- The numbering of spec/opcode_table.json: the match of the row of sub with fields 1, 2, 3; of jeq; of halt; a load
whose table word leaves the operand bytes out. -/
theorem test_table_words :
    decodeTableWord 32 0x02010203 = some (.sub 1 2 3) ∧ decodeTableWord 16 0x0F1F = some (.jeq 31) ∧
    decodeTableWord 24 0x0C0A0B = some (.lt 10 11) ∧ decodeTableWord 8 0x05 = some .halt ∧
    decodeTableWord 8 0x00 = some (.load 0 0) ∧ decodeTableWord 8 0xFF = some .illegal := by decide

/-- A table word placed where the reset state fetches runs as the first instruction. -/
theorem test_fetch_word : value (after (State.reset.withFetchWord 32 0x000501F4)) 5 = some 500 := by decide

/-! ### One step of each instruction (spec/95_test_vectors.md) -/

/-- L3: no sign extension. -/
theorem test_load_zero_extends : value (after (machine .reference [0x00, 0x05, 0x80, 0x00] [])) 5 = some 32768 := by decide
/-- L5. -/
theorem test_load_bad_register :
    recorded (after (machine .reference [0x00, 0x20, 0x00, 0x01] [])) = some (.badRegister, 0, 0x00) := by decide
/-- A2. -/
theorem test_add_wraps :
    value (after (machine .reference [0x01, 0x00, 0x01, 0x02] [(0, 2147483647), (1, 1)])) 2 = some (-2147483648) := by decide
/-- A3: source and destination the same. -/
theorem test_add_same_register :
    value (after (machine .reference [0x01, 0x00, 0x00, 0x00] [(0, -2147483648)])) 0 = some 0 := by decide
/-- S1: the first source minus the second. -/
theorem test_sub_order :
    value (after (machine .reference [0x02, 0x00, 0x01, 0x02] [(0, 3), (1, 5)])) 2 = some (-2) := by decide
/-- S2. -/
theorem test_sub_wraps :
    value (after (machine .reference [0x02, 0x00, 0x01, 0x02] [(0, -2147483648), (1, 1)])) 2 = some 2147483647 := by decide
/-- M1. -/
theorem test_mul_wraps :
    value (after (machine .reference [0x03, 0x00, 0x01, 0x02] [(0, 46341), (1, 46341)])) 2 = some (-2147479015) := by decide
/-- M4. -/
theorem test_mul_signed :
    value (after (machine .reference [0x03, 0x00, 0x01, 0x02] [(0, -6), (1, 7)])) 2 = some (-42) := by decide
/-- V3: the quotient toward zero, the remainder -1 stored unsigned. -/
theorem test_div_negative_dividend :
    let t := after (machine .reference [0x04, 0x00, 0x01, 0x02] [(0, -7), (1, 2)])
    value t 2 = some (-3) ∧ remValue t = some 4294967295 := by decide
/-- V12. -/
theorem test_div_overflow :
    let t := after (machine .reference [0x04, 0x00, 0x01, 0x02] [(0, -2147483648), (1, -1)])
    recorded t = some (.divideOverflow, 0, 0x04) ∧ value t 2 = none := by decide
/-- H1. -/
theorem test_halt :
    let t := after (machine .reference [0x05] [])
    t.outcome = .halted .haltInstr ∧ t.pc.toNat = 1 := by decide
/-- J2. -/
theorem test_jmp_negative : (after (machine .reference [0x06, 0x00] [(0, -1)])).pc.toNat = 4294967295 := by decide
/-- F1. -/
theorem test_jmpf_forward : (after (machine .reference [0x07, 0x00] [(0, 4)])).pc.toNat = 6 := by decide
/-- F4. -/
theorem test_jmpf_underflow :
    recorded (after (machine .reference [0x07, 0x00] [(0, -3)])) = some (.pcUnderflow, 0, 0x07) := by decide
/-- B3. -/
theorem test_jmpb_negative : (after (machine .reference [0x08, 0x01] [(1, -4)])).pc.toNat = 6 := by decide
/-- B2. -/
theorem test_jmpb_underflow :
    recorded (after (machine .reference [0x08, 0x01] [(1, 3)])) = some (.pcUnderflow, 0, 0x08) := by decide
/-- Q1 and the pc of R170. -/
theorem test_eq :
    let t := after (machine .reference [0x09, 0x00, 0x01] [(0, 3), (1, 3)])
    flagValue t = some true ∧ t.pc.toNat = 3 := by decide
/-- Q2. -/
theorem test_neq : flagValue (after (machine .reference [0x0A, 0x00, 0x01] [(0, -1), (1, 1)])) = some true := by decide
/-- Q7: a signed comparison. -/
theorem test_gt_signed :
    flagValue (after (machine .reference [0x0B, 0x00, 0x01] [(0, -1), (1, 2147483647)])) = some false := by decide
/-- Q4. -/
theorem test_lt_signed : flagValue (after (machine .reference [0x0C, 0x00, 0x01] [(0, -1), (1, 1)])) = some true := by decide
/-- Q5. -/
theorem test_gtq : flagValue (after (machine .reference [0x0D, 0x00, 0x01] [(0, 3), (1, 3)])) = some true := by decide
/-- Q6. -/
theorem test_ltq : flagValue (after (machine .reference [0x0E, 0x00, 0x01] [(0, 5), (1, 2)])) = some false := by decide
/-- B6: not taken, the length is 2. -/
theorem test_jeq_not_taken :
    (after ((machine .reference [0x0F, 0x03] [(3, 16)]).writeFlag false)).pc.toNat = 2 := by decide
/-- E7: the flag is read. -/
theorem test_jeq_unwritten_flag :
    recorded (after (machine .reference [0x0F, 0x00] [(0, 3)])) = some (.unwrittenRead, 0, 0x0F) := by decide
/-- B8. -/
theorem test_jneq_taken :
    (after ((machine .reference [0x10, 0x03] [(3, 16)]).writeFlag false)).pc.toNat = 16 := by decide
/-- B7. -/
theorem test_jneq_not_taken :
    (after ((machine .reference [0x10, 0x03] [(3, 16)]).writeFlag true)).pc.toNat = 2 := by decide
/-- G2. -/
theorem test_aloc_grows :
    let t := after ((machine .reference [0x11, 0x00] [(0, 4)]).growHeap 3)
    t.heap.size = 7 ∧ [3, 6, 7].map t.heap.read = [some 0, some 0, none] := by decide
/-- G4 and G5: at `HEAP_MAX` and past it. -/
theorem test_aloc_bound :
    recorded (after (machine .reference [0x11, 0x00] [(0, 65536)])) = some (.heapExhausted, 0, 0x11) ∧
    (after (machine .reference [0x11, 0x00] [(0, 65535)])).heap.size = 65535 := by decide
/-- H5. -/
theorem test_nop :
    let t := after (machine withNop [0x12] [])
    t.outcome = .continues ∧ t.pc.toNat = 1 := by decide
/-- H4. -/
theorem test_illegal :
    let t := after (machine .reference [0xFF, 0x00, 0x00] [])
    t.outcome = .halted .illegalInstr ∧ t.pc.toNat = 1 := by decide

/-! ### The order of checks, halts and faults -/

/-- A6: every field is checked before any read; E3: truncation before the fields. -/
theorem test_check_order :
    recorded (after (machine .reference [0x01, 0x07, 0x28, 0x02] [])) = some (.badRegister, 0, 0x01) ∧
    recorded (after (machine .reference [0x01, 0x28, 0x01] [])) = some (.truncated, 0, 0x01) := by decide
/-- E1 and E10: the end of the buffer is not sticky. -/
theorem test_end_of_buffer :
    let t := after (State.resetWith .reference)
    t.outcome = .halted .endOfBuffer ∧ (after (appendBytes t [0x05]).1).outcome = .halted .haltInstr := by decide
/-- E11: a fault is sticky through an append. -/
theorem test_fault_is_sticky :
    let t := after (appendBytes (after (machine .reference [0x01, 0x00, 0x00, 0x00] [])) [0x05]).1
    t.outcome = .faulted .unwrittenRead ∧ t.pc.toNat = 0 := by decide
/-- The `Zero` policy (70_reset_and_hazards.md R241): the same step reads 0. -/
theorem test_zero_policy :
    value (after (machine .boot [0x01, 0x00, 0x00, 0x05] [])) 5 = some 0 := by decide

/-! ### The assembler -/

/-- W1, W2, W3 and W9. -/
theorem test_assembler_lines :
    compileLine .reference "load $0 #100".toList = some [0x00, 0x00, 0x00, 0x64] ∧
    compileLine .reference "load $7 #-1".toList = some [0x00, 0x07, 0xFF, 0xFF] ∧
    compileLine .reference "halt".toList = some [0x05] ∧ compileLine .reference "foo $1".toList = some [0xFF, 0x01] := by
  decide
/-- R82, R81, R85 (P5c), R86 with D2. -/
theorem test_assembler_refusals :
    compileLine .reference "load $7 #32768".toList = none ∧ compileLine .reference "jmp $256".toList = none ∧
    compileLine .reference "add $0 #5".toList = some [0x01, 0x00, 0x00, 0x05] ∧
    compileLine .reference "nop".toList = none := by decide
/-- R89: the two modes on two lines. -/
theorem test_parse_modes :
    compile .reference "load $0 #1\n\nhalt".toList = some [0x00, 0x00, 0x00, 0x01, 0x05] ∧
    compile { Config.reference with parseMode := .formOneOnly } "load $0 #1\nhalt".toList = none := by decide

/-! ### Witnesses: for every obligation with hypotheses, states and operands that meet them together -/

/-- A machine under the `Unwritten` policy with an empty heap and no fault meets the invariant. -/
theorem machine_inv {s : State} (hc : s.cfg.wf = true) (hb : s.buffer.wf = true)
    (hl : s.buffer.size ≤ s.cfg.maxProgramBytes) (hw : s.heap.wf = true) (hm : s.heap.size ≤ s.cfg.heapMax)
    (hz : s.heap.cells = []) (hf : s.fault = none) (hp : s.cfg.resetPolicy = .unwritten) : s.Inv where
  cfgWf := hc
  bufferWf := hb
  bufferBound := hl
  heapWf := hw
  heapBound := hm
  heapZero := by
    intro a v h
    unfold Memory.read at h
    rw [hz] at h
    split at h
    · exact (Option.some.inj h).symm
    · cases h
  faultAtPc := by intro r h; rw [hf] at h; cases h
  regsWritten := by intro h; rw [hp] at h; cases h
  flagWritten := by intro h; rw [hp] at h; cases h
  remWritten := by intro h; rw [hp] at h; cases h

/-- A store of 4 zero bytes. -/
def fourZeros : Memory := { size := 4, cells := [] }

theorem witness_ResetSetsEveryPieceOfState :
    (State.resetWith .reference).cfg.resetPolicy = .unwritten ∧ State.reset.cfg.resetPolicy = .zero := by decide

theorem witness_InvariantHoldsAtReset : Config.reference.wf = true ∧ withNop.wf = true := by decide

theorem witness_ToByteInvertsFromByte :
    withNop.wf = true ∧ toByte withNop .aloc = some 0x11 ∧ toByte withNop .nop = some 0x12 ∧
    toByte withNop .load = some 0x00 ∧ encode withNop .illegal = some [0xFF] := by decide

theorem witness_DecodeOfEncodeIsTheInstruction :
    withNop.wf = true ∧ Instr.wf withNop .nop = true ∧ Instr.wf withNop (.load 0xFF 0xFFFF) = true := by decide

theorem witness_EncodeOfDecodeIsTheBytes :
    withNop.wf = true ∧ decode withNop [0x11, 0xFF, 0x05] = .ok (.aloc 0xFF, [0x05]) ∧ Instr.aloc 0xFF ≠ .illegal :=
  ⟨by decide, rfl, by decide⟩

theorem witness_OpcodeByteFixesTheLength :
    decode .reference [0x0F, 0x03, 0x05] = .ok (.jeq 3, [0x05]) ∧ (fromByte .reference 0x0F).length ≤ [3, 5].length + 1 :=
  ⟨rfl, by decide⟩

/-- The first two clauses at the bytes 0x12 and 0x11 where they meet, the third at register field 32. -/
theorem witness_IllegalBytesHaltWithoutFault :
    let s := machine .reference [0x12] []
    s.fault = none ∧ s.buffer.read s.pc.toNat = some 0x12 ∧ 0x11 < (0x12 : Byte).toNat ∧ s.cfg.nopByte ≠ some 0x12 ∧
    Config.reference.wf = true ∧ (0x11 : Byte).toNat ≤ 0x11 ∧
    decode .reference [0x11, 0x20] = .ok (.aloc 0x20, []) ∧
    (let t := machine .reference [0x11, 0x20] []
     t.fault = none ∧ decode t.cfg (t.buffer.window t.pc.toNat 4) = .ok (.aloc 0x20, []) ∧
     ∃ f ∈ (Instr.aloc 0x20).regFields, 32 ≤ f.toNat) :=
  ⟨by decide, by decide, by decide, by decide, by decide, by decide, rfl, by decide, rfl, by decide⟩

theorem witness_LoadImmediateIsUnsignedBigEndian :
    let s := machine .reference [0x00, 0x1F, 0xFF, 0xFF] []
    s.fault = none ∧ fromByte s.cfg 0x00 = .load ∧ s.buffer.window s.pc.toNat 4 = [0x00, regByte 31, 0xFF, 0xFF] ∧
    toByte .reference .load = some 0x00 ∧ Instr.op (.aloc 0) ≠ .load := by decide

/-- The encoder's clauses: illegal, a mapped operation, and nop without a byte. -/
theorem witness_EncoderEmitsOpcodeThenOperands :
    (if Op.illegal = .illegal then some Config.reference.illegalEncodeByte else toByte .reference .illegal) = some 0xFF ∧
    (if Op.add = .illegal then some Config.reference.illegalEncodeByte else toByte .reference .add) = some 0x01 ∧
    (∀ o ∈ [Operand.reg 0, .int (-1)], ∀ p, o ≠ .opcode p) ∧ Config.reference.nopByte = none := by
  refine ⟨by decide, by decide, ?_, by decide⟩
  intro o ho p
  simp only [List.mem_cons, List.not_mem_nil, or_false] at ho
  rcases ho with rfl | rfl <;> exact Operand.noConfusion

theorem witness_OpcodeOperandIsRefused :
    Operand.opcode .add ∈ ({ op := .add, operands := [.reg 0, .opcode .add] } : AsmInstr).operands ∧
    parseLine "add $0 $1 $2".toList = some { op := .add, operands := [.reg 0, .reg 1, .reg 2] } ∧
    parseProgram .formOneOnly "load $0 #1 load $1 #2".toList =
      some [{ op := .load, operands := [.reg 0, .int 1] }, { op := .load, operands := [.reg 1, .int 2] }] ∧
    parseProgram .perLine "halt\njmp $3".toList =
      some [{ op := .halt, operands := [] }, { op := .jmp, operands := [.reg 3] }] := by decide

theorem witness_ProgramBytesAreConcatenated :
    ([{ op := .halt, operands := [] }, { op := .jmp, operands := [.reg 3] }] : AsmProgram).map (encodeAsm .reference)
      = [[0x05], [0x06, 0x03]].map some ∧
    programBytes .reference [{ op := .jmp, operands := [.reg 3] }] = some [0x06, 0x03] := by decide

/-- The column of R61, a string outside it, and a run of letters. -/
theorem witness_MnemonicsResolveExactly :
    (∀ p ∈ [("load", Op.load), ("add", .add), ("sub", .sub), ("mul", .mul), ("div", .div), ("halt", .halt),
        ("jmp", .jmp), ("jmpf", .jmpf), ("jmpb", .jmpb), ("eq", .eq), ("neq", .neq), ("gt", .gt), ("lt", .lt),
        ("gtq", .gtq), ("ltq", .ltq), ("jeq", .jeq), ("jneq", .jneq), ("aloc", .aloc), ("nop", .nop)],
      p.1.toList ≠ ['j', 'm']) ∧ ['a', 'Z'] ≠ [] ∧
    (∀ c ∈ ['a', 'Z'], ('a' ≤ c ∧ c ≤ 'z') ∨ ('A' ≤ c ∧ c ≤ 'Z')) := by
  refine ⟨by decide, by decide, ?_⟩
  intro c hc
  simp only [List.mem_cons, List.not_mem_nil, or_false] at hc
  rcases hc with rfl | rfl
  · exact .inl (by decide)
  · exact .inr (by decide)

/-- A line on each side of the equivalence. -/
theorem witness_LinesMatchExactlyFiveShapes :
    parseLine "jmp $3".toList = some { op := .jmp, operands := [.reg 3] } ∧
    tokensOf "jmp $3".toList = some [.opcode .jmp, .reg 3] ∧ parseLine "jmp $3 #1 #2".toList = none := by decide

theorem witness_StepRunsTheDecodedInstruction :
    let s := machine .reference [0x11, 0x07, 0x05] []
    s.fault = none ∧ decode s.cfg (s.buffer.window s.pc.toNat 4) = .ok (.aloc 7, [0x05]) := ⟨by decide, rfl⟩

theorem witness_EncodedBytesAtPcAreExecuted :
    let s := machine .reference [0x0C, 0x00, 0x01] []
    s.cfg.wf = true ∧ s.fault = none ∧ encode s.cfg (.lt 0 1) = some [0x0C, 0x00, 0x01] ∧
    ∀ k, k < [0x0C, 0x00, 0x01].length → s.buffer.read (s.pc.toNat + k) = ([0x0C, 0x00, 0x01] : List Byte)[k]? := by
  decide

/-- The first clause, then an append that leaves pc past the end, then one that does not. -/
theorem witness_EndOfBufferHaltsUntilBytesAreAppended :
    let s := machine .reference [0x05] []
    let t := s.setPc 1
    let u := s.setPc 5
    t.fault = none ∧ t.buffer.size ≤ t.pc.toNat ∧ (appendBytes t [0x05]).2 = true ∧
    t.pc.toNat < (appendBytes t [0x05]).1.buffer.size ∧
    u.fault = none ∧ u.buffer.size ≤ u.pc.toNat ∧ (appendBytes u [0x05]).2 = true ∧
    (appendBytes u [0x05]).1.buffer.size ≤ u.pc.toNat := by decide

/-- One byte short, exactly long enough, and a 1-byte instruction. -/
theorem witness_TruncatedExactlyPastTheEnd :
    let s := machine .reference [0x01, 0x00, 0x01] []
    let t := machine .reference [0x01, 0x00, 0x01, 0x02] []
    let u := machine .reference [0x05] []
    s.fault = none ∧ s.buffer.read s.pc.toNat = some 0x01 ∧
    s.buffer.size < s.pc.toNat + (fromByte s.cfg 0x01).length ∧
    t.fault = none ∧ t.buffer.read t.pc.toNat = some 0x01 ∧
    t.pc.toNat + (fromByte t.cfg 0x01).length ≤ t.buffer.size ∧
    u.fault = none ∧ u.buffer.read u.pc.toNat = some 0x05 ∧ (fromByte u.cfg 0x05).length = 1 ∧
    step t = .next (after t) :=
  ⟨by decide, by decide, by decide, by decide, by decide, by decide, by decide, by decide, by decide, rfl⟩

theorem witness_RecordedFaultPersistsUntilReset :
    (after (machine .reference [0x06, 0x03] [])).fault = some { cause := .unwrittenRead, fpc := 0, opbyte := 0x06 } ∧
    ∀ c ∈ [HostCall.appendBytes [0x05], .runOnce, .snapshot, .compile []], c ≠ .reset := by decide

theorem witness_FaultsArePrecise :
    let s := machine .reference [0x06, 0x03] []
    s.fault = none ∧ step s = .next (after s) ∧ (after s).outcome = .faulted .unwrittenRead ∧ (after s).fault ≠ none :=
  ⟨by decide, rfl, by decide, by decide⟩

theorem witness_OnlyHaltAndIllegalEndTheRun :
    let s := machine .reference [0x05] []
    exec .halt s = .next { s with pc := 1, outcome := .halted .haltInstr } ∧
    exec .illegal s = .next { s with pc := 1, outcome := .halted .illegalInstr } ∧
    exec (.load 0 1) s = .next { (s.writeReg 0 1) with pc := 4 } ∧
    (∀ f, StepOutcome.halted .haltInstr ≠ .faulted f) ∧ (∀ f, StepOutcome.continues ≠ .faulted f) :=
  ⟨rfl, rfl, rfl, fun _ => StepOutcome.noConfusion, fun _ => StepOutcome.noConfusion⟩

/-- A step that halts for each of the three reasons, and a run that ends in a halt. -/
theorem witness_HaltsAreNotFaults :
    (after (machine .reference [] [])).outcome = .halted .endOfBuffer ∧
    (after (machine .reference [0x05] [])).outcome = .halted .haltInstr ∧
    (after (machine .reference [0x12] [])).outcome = .halted .illegalInstr ∧
    run 1 (machine .reference [0x05] []) = some (after (machine .reference [0x05] []), .halted .haltInstr) :=
  ⟨by decide, by decide, by decide, rfl⟩

/-- A run that answers, and its chain: a nop, then a halt. -/
theorem witness_RunReturnsTheFirstStop :
    let c : Nat → State := fun j => if j = 0 then machine withNop [0x12, 0x05] [] else after (machine withNop [0x12, 0x05] [])
    (run 2 (c 0)).map (fun r => r.2) = some (.halted .haltInstr) ∧
    (∀ j, j < 1 → step (c j) = .next (c (j + 1)) ∧ (c (j + 1)).outcome = .continues) ∧
    step (c 1) = .next (after (c 1)) ∧ (after (c 1)).outcome ≠ .continues := by
  refine ⟨by decide, ?_, rfl, by decide⟩
  intro j hj
  obtain rfl : j = 0 := by omega
  exact ⟨rfl, by decide⟩

theorem witness_BadRegisterComesBeforeReads :
    let s := machine .reference [0x01, 0x07, 0x28, 0x02] []
    s.buffer.read s.pc.toNat = some 0x01 ∧ ∃ f ∈ (Instr.add 0x07 0x28 0x02).regFields, 32 ≤ f.toNat := by decide

/-- The register clause at register 31, and the flag clause with the register written. -/
theorem witness_UnwrittenReadComesBeforeOwnChecks :
    let s := machine .reference [0x04, 0x00, 0x1F, 0x02] [(0, 1)]
    let t := machine .reference [0x0F, 0x03] [(3, 16)]
    s.buffer.read s.pc.toNat = some 0x04 ∧ s.cfg.resetPolicy = .unwritten ∧
    (∀ f ∈ (Instr.div 0 31 2).regFields, f.toNat < 32) ∧
    (∃ r, regByte r ∈ (Instr.div 0 31 2).readFields ∧ (s.reg r).written = false) ∧
    t.buffer.read t.pc.toNat = some 0x0F ∧ t.cfg.resetPolicy = .unwritten ∧
    (∀ f ∈ (Instr.jeq 3).regFields, f.toNat < 32) ∧ (Instr.jeq 3).op = .jeq ∧ t.flag.written = false := by decide

theorem witness_WrittenCellsStayWritten :
    let s := machine .boot [0x04, 0x00, 0x01, 0x02] [(0, 7), (1, 2)]
    s.fault = none ∧ step s = .next (after s) ∧ s.cfg.resetPolicy = .zero ∧ (s.reg 0).written = true ∧
    s.flag.written = true ∧ s.rem.written = true :=
  ⟨by decide, rfl, by decide, by decide, by decide, by decide⟩

theorem witness_AddSubMulWriteTheWrappedResult :
    let s := machine .reference [] [(0, 2147483647), (31, 1)]
    s.RegReadable 0 ∧ s.RegReadable 31 := by decide

theorem witness_DivWritesQuotientAndRemainder :
    let s := machine .reference [] [(0, -2147483648), (1, 2)]
    s.RegReadable 0 ∧ s.RegReadable 1 ∧ (s.reg 1).value.toInt ≠ 0 ∧
    ¬ ((s.reg 0).value.toInt = -2 ^ 31 ∧ (s.reg 1).value.toInt = -1) := by decide

/-- Both clauses. -/
theorem witness_DivFaultsOnZeroAndOverflow :
    let s := machine .reference [0x04, 0x00, 0x01, 0x02] [(0, 5), (1, 0)]
    let t := machine .reference [0x04, 0x00, 0x01, 0x02] [(0, -2147483648), (1, -1)]
    s.buffer.read s.pc.toNat = some 0x04 ∧ s.RegReadable 0 ∧ s.RegReadable 1 ∧ (s.reg 1).value.toInt = 0 ∧
    t.buffer.read t.pc.toNat = some 0x04 ∧ t.RegReadable 0 ∧ t.RegReadable 1 ∧ (t.reg 0).value.toInt = -2 ^ 31 ∧
    (t.reg 1).value.toInt = -1 := by decide

theorem witness_JmpGoesToTheRegister : (machine .reference [] [(3, -1)]).RegReadable 3 := by decide

/-- A target of exactly 0, and one of -1, for each jump. -/
theorem witness_RelativeJumpsCountFromTheNextByte :
    let s := machine .reference [0x07, 0x00] [(0, -2), (1, -3), (2, 2), (3, 3)]
    s.Inv ∧ (s.RegReadable 0 ∧ s.RegReadable 1 ∧ s.RegReadable 2 ∧ s.RegReadable 3) ∧
    s.pc.toNat + 2 ≤ s.buffer.size ∧ s.buffer.read s.pc.toNat = some 0x07 ∧
    (s.pc.toNat : Int) + 2 + (s.reg 0).value.toInt = 0 ∧ (s.pc.toNat : Int) + 2 + (s.reg 1).value.toInt < 0 ∧
    (s.pc.toNat : Int) + 2 - (s.reg 2).value.toInt = 0 ∧ (s.pc.toNat : Int) + 2 - (s.reg 3).value.toInt < 0 :=
  ⟨machine_inv (by decide) (by decide) (by decide) (by decide) (by decide) rfl rfl rfl, by decide⟩

theorem witness_ComparisonsWriteTheSignedRelation :
    let s := machine .reference [] [(0, -1), (1, 1)]
    s.RegReadable 0 ∧ s.RegReadable 1 := by decide

theorem witness_ConditionalJumpsFollowTheFlag :
    let s := (machine .reference [] [(3, 16)]).writeFlag true
    s.RegReadable 3 ∧ s.FlagReadable := by decide

/-- A count that fills the heap exactly. -/
theorem witness_AlocGrowsTheHeapByZeroBytes :
    let s := (machine .reference [] [(0, 65532)]).growHeap 3
    s.heap.wf = true ∧ s.RegReadable 0 ∧ 0 ≤ (s.reg 0).value.toInt ∧
    (s.heap.size : Int) + (s.reg 0).value.toInt ≤ s.cfg.heapMax := by decide

/-- A count of -1, and one byte too many. -/
theorem witness_AlocFaultsOnNegativeAndExhausted :
    let s := (machine .reference [0x11, 0x00] [(0, -1), (1, 65533)]).growHeap 3
    s.buffer.read s.pc.toNat = some 0x11 ∧ s.RegReadable 0 ∧ (s.reg 0).value.toInt < 0 ∧ s.RegReadable 1 ∧
    0 ≤ (s.reg 1).value.toInt ∧ (s.cfg.heapMax : Int) < s.heap.size + (s.reg 1).value.toInt := by decide

/-- A div that completes and a div that faults. -/
theorem witness_RegisterWritersFrame :
    let s := machine .reference [0x04, 0x00, 0x01, 0x02] [(0, 7), (1, 2)]
    Instr.div 0 1 2 ∈ [Instr.load 2 9, .add 0 1 2, .sub 0 1 2, .mul 0 1 2, .div 0 1 2] ∧
    (∃ t, exec (.div 0 1 2) s = .next t ∧ regByte 3 ≠ 2) ∧
    (∃ t, exec (.add 0 1 2) s = .next t ∧ Instr.add 0 1 2 ≠ .div 0 1 2) ∧ ∃ t, exec (.div 0 5 2) s = .next t :=
  ⟨by decide, ⟨_, rfl, by decide⟩, ⟨_, rfl, by decide⟩, ⟨_, rfl⟩⟩

theorem witness_ComparisonsFrame :
    let s := machine .reference [0x09, 0x00, 0x01] [(0, 7), (1, 2)]
    Instr.gt 0 1 ∈ [Instr.eq 0 1, .neq 0 1, .gt 0 1, .lt 0 1, .gtq 0 1, .ltq 0 1] ∧ ∃ t, exec (.gt 0 1) s = .next t :=
  ⟨by decide, _, rfl⟩

theorem witness_JumpsAndControlFrame :
    let s := machine .reference [0x06, 0x00] [(0, 7)]
    Instr.jmp 0 ∈ [Instr.jmp 0, .jmpf 0, .jmpb 0, .jeq 0, .jneq 0, .halt, .illegal, .nop] ∧
    ∃ t, exec (.jmp 0) s = .next t := ⟨by decide, _, rfl⟩

theorem witness_AlocFrame :
    let s := (machine .reference [0x11, 0x00] [(0, 4)]).growHeap 3
    (∃ t, exec (.aloc 0) s = .next t) ∧ 2 < s.heap.size := ⟨⟨_, rfl⟩, by decide⟩

/-- A state for each clause: pc at the end, a fault, and one completed instruction of each row. -/
theorem witness_PcAfterEveryOutcome :
    let e := machine .reference [] []
    let f := machine .reference [0x06, 0x00] []
    let s := fun bs => (machine .reference bs [(0, 4), (1, -4)]).writeFlag true
    (e.Inv ∧ e.fault = none ∧ step e = .next (after e) ∧ e.buffer.size ≤ e.pc.toNat) ∧
    (f.Inv ∧ f.fault = none ∧ step f = .next (after f) ∧ (after f).outcome = .faulted .unwrittenRead) ∧
    ∀ p ∈ [([0x01, 0x00, 0x00, 0x02], Instr.add 0 0 2), ([0x0C, 0x00, 0x01], .lt 0 1), ([0x11, 0x00], .aloc 0),
        ([0x05], .halt), ([0x06, 0x01], .jmp 1), ([0x07, 0x00], .jmpf 0), ([0x08, 0x01], .jmpb 1),
        ([0x0F, 0x01], .jeq 1), ([0x10, 0x01], .jneq 1)],
      (s p.1).Inv ∧ (s p.1).fault = none ∧ step (s p.1) = .next (after (s p.1)) ∧
      decode (s p.1).cfg ((s p.1).buffer.window (s p.1).pc.toNat 4) = .ok (p.2, []) ∧
      (after (s p.1)).outcome.isFault = false := by
  refine ⟨⟨machine_inv (by decide) (by decide) (by decide) (by decide) (by decide) rfl rfl rfl, rfl, rfl, by decide⟩,
    ⟨machine_inv (by decide) (by decide) (by decide) (by decide) (by decide) rfl rfl rfl, rfl, rfl, by decide⟩, ?_⟩
  intro p hp
  simp only [List.mem_cons, List.not_mem_nil, or_false] at hp
  rcases hp with rfl | rfl | rfl | rfl | rfl | rfl | rfl | rfl | rfl <;>
    exact ⟨machine_inv (by decide) (by decide) (by decide) (by decide) (by decide) rfl rfl rfl, rfl, rfl, rfl, by decide⟩

theorem witness_OnlyComparisonsWriteFlagOnlyDivWritesRem :
    let s := machine .reference [0x09, 0x00, 0x01] [(0, 7), (1, 2)]
    let t := machine .reference [0x04, 0x00, 0x01, 0x02] [(0, 7), (1, 2)]
    step s = .next (after s) ∧ (after s).flag ≠ s.flag ∧ step t = .next (after t) ∧ (after t).rem ≠ t.rem :=
  ⟨rfl, by decide, rfl, by decide⟩

theorem witness_HeapOnlyGrowsAndBufferIsReadOnly :
    let s := (machine .reference [0x11, 0x00] [(0, 4)]).growHeap 3
    step s = .next (after s) ∧ (after s).heap ≠ s.heap ∧ 2 < s.heap.size := ⟨rfl, by decide, by decide⟩

/-- The three clauses: a store, an aloc that changes the heap, and host calls after which heap byte 3 is there. -/
theorem witness_EveryHeapByteIsZero :
    let s := machine .reference [0x11, 0x00] [(0, 4)]
    fourZeros.wf = true ∧ exec (.aloc 0) s = .next (after s) ∧ (after s).heap ≠ s.heap ∧
    (hostCalls (hostReset s) [.appendBytes [0x00, 0x00, 0x00, 0x04, 0x11, 0x00], .runOnce, .runOnce]).heap.read 3
      = some 0 := ⟨by decide, rfl, by decide, by decide⟩

/-- An append of exactly `MAX_PROGRAM_BYTES`, and one byte more. -/
theorem witness_AppendIsWholeOrRefused :
    let s := machine { Config.reference with maxProgramBytes := 2 } [0x05] []
    s.buffer.wf = true ∧ s.cfg.maxProgramBytes < s.buffer.size + [0x05, 0x05].length ∧
    s.buffer.size + [0x05].length ≤ s.cfg.maxProgramBytes ∧ s.cfg.wf = true := by decide

theorem witness_FetchableBytesKeepTheirValue :
    let s := (machine .reference [0x05] []).setPc 1
    (∀ c ∈ [HostCall.appendBytes [0x12], .runOnce], c ≠ .reset) ∧ s.buffer.read 0 = some 0x05 ∧ s.buffer.wf = true ∧
    s.fault = none ∧ s.pc.toNat = s.buffer.size ∧ (appendBytes s [0x11, 0x07]).2 = true ∧
    decode s.cfg [0x11, 0x07] = .ok (.aloc 7, []) :=
  ⟨by decide, by decide, by decide, by decide, by decide, by decide, rfl⟩

theorem witness_StepKeepsTheInvariant :
    let s := machine .reference [0x11, 0x00] [(0, 4)]
    s.Inv ∧ step s = .next (after s) :=
  ⟨machine_inv (by decide) (by decide) (by decide) (by decide) (by decide) rfl rfl rfl, rfl⟩

theorem witness_HostCallsKeepTheInvariant : (machine .reference [0x11, 0x00] [(0, 4)]).Inv :=
  machine_inv (by decide) (by decide) (by decide) (by decide) (by decide) rfl rfl rfl

/-- Two different states that the snapshot shows alike. -/
theorem witness_HiddenValuesNeverShow :
    let s := machine .reference [0x06, 0x03] []
    let t := { s with rem := { value := 9, written := false } }
    s ≠ t ∧ s.cfg = t.cfg ∧ snapshot s = snapshot t ∧ step s = .next (after s) :=
  ⟨by decide, rfl, rfl, rfl⟩

/-- A step, which is a sequence of one, and a run that stops. -/
theorem witness_ZeroPolicyRunsFollowUnwrittenRuns :
    let s := machine .reference [0x00, 0x00, 0x00, 0x07, 0x05] []
    s.cfg.resetPolicy = .unwritten ∧ step s = .next (after s) ∧ (after s).outcome ≠ .faulted .unwrittenRead ∧
    (run 2 s).map (fun r => r.2) = some (.halted .haltInstr) := ⟨by decide, rfl, by decide, by decide⟩

theorem witness_JumpIntoAnOperandExecutesIt :
    let s := (machine .reference [0x00, 0x05, 0x00, 0x07] []).setPc 1
    s.fault = none ∧ s.cfg.opcodeMap = defaultOpcodeMap ∧ s.pc = 1 ∧
    [s.buffer.read 0, s.buffer.read 1, s.buffer.read 2, s.buffer.read 3] =
      [some 0x00, some 0x05, some 0x00, some 0x07] := by decide

end Sys2Proof.Tests
end

/-! PROOF. The invariant of the machine through one step: one lemma per outcome of `step_cases`. -/

namespace Sys2Proof.Machine

/-! ### What an instruction's writes keep of the invariant's clauses -/

/-- `HeapGrow` appends zero bytes, so a store of zero bytes stays one (20_memory.md R44). -/
theorem Memory.growZero_all_zero {m : Memory} (n : Nat) (hwf : m.wf = true)
    (hzero : ∀ a v, m.read a = some v → v = 0#8) : ∀ a v, (m.growZero n).read a = some v → v = 0#8 := by
  intro a v hread
  by_cases hold : a < m.size
  · exact hzero a v (m.growZero_read_old n hold ▸ hread)
  · have hnew : a < m.size + n := Memory.read_lt hread
    rw [m.growZero_read_new n hwf (Nat.le_of_not_lt hold) hnew] at hread
    exact (Option.some.inj hread).symm

/-- A write makes its cell written, so a written cell that is kept or written is written (10_state.md R21). -/
theorem Cell.written_of_kept_or_holding {α : Type} {c d : Cell α} (h : d = c ∨ ∃ v, d = Cell.holding v)
    (hc : c.written = true) : d.written = true := by
  rcases h with rfl | ⟨v, rfl⟩
  · exact hc
  · exact Cell.holding_written v

theorem Completed.reg_written {i : Instr} {s t : State} (h : Completed i s t) {r : RegId}
    (hs : (s.reg r).written = true) : (t.reg r).written = true := by
  refine Cell.written_of_kept_or_holding ?_ hs
  by_cases hd : i.destField = some (regByte r)
  · exact .inr (h.dest r hd)
  · exact .inl (h.regs r hd)

theorem Completed.flag_written {i : Instr} {s t : State} (h : Completed i s t) (hs : s.flag.written = true) :
    t.flag.written = true :=
  Cell.written_of_kept_or_holding (h.flag.imp_right And.right) hs

theorem Completed.rem_written {i : Instr} {s t : State} (h : Completed i s t) (hs : s.rem.written = true) :
    t.rem.written = true :=
  Cell.written_of_kept_or_holding (h.rem.imp_right And.right) hs

/-! ### The invariant through each outcome of a step -/

/-- No clause of the invariant speaks of the outcome field. -/
theorem State.Inv.withOutcome {s : State} (h : s.Inv) (o : StepOutcome) : (s.withOutcome o).Inv :=
  { h with }

/-- Fault entry with pc in the buffer records the instruction at pc (60_exceptions.md R211). -/
theorem State.Inv.raise {s : State} (h : s.Inv) (hpc : s.pc.toNat < s.buffer.size) (f : Fault) : (s.raise f).Inv :=
  { h with
    faultAtPc := fun r hr => by
      obtain rfl := Option.some.inj hr
      exact ⟨rfl, State.read_opcodeByte hpc⟩ }

/-- The heap clauses of the invariant through a completed instruction: only aloc changes the heap, and it appends zero
bytes within `HEAP_MAX` (45_control_heap.md R193). -/
theorem Completed.heap_inv {i : Instr} {s t : State} (h : Completed i s t) (hs : s.Inv) :
    t.heap.wf = true ∧ t.heap.size ≤ t.cfg.heapMax ∧ ∀ a v, t.heap.read a = some v → v = 0#8 := by
  rw [h.cfg]
  rcases h.heap with heq | ⟨-, n, hgrow, hbound⟩
  · rw [heq]
    exact ⟨hs.heapWf, hs.heapBound, hs.heapZero⟩
  · rw [hgrow]
    exact ⟨Memory.growZero_wf _ n hs.heapWf, hbound, Memory.growZero_all_zero n hs.heapWf hs.heapZero⟩

/-- An instruction that completes, from a state with no fault recorded, keeps the invariant. -/
theorem Completed.inv {i : Instr} {s t : State} (h : Completed i s t) (hs : s.Inv) (hfault : s.fault = none) :
    t.Inv := by
  obtain ⟨hwf, hbound, hzero⟩ := h.heap_inv hs
  exact
    { cfgWf := h.cfg ▸ hs.cfgWf
      bufferWf := h.buffer ▸ hs.bufferWf
      bufferBound := by rw [h.buffer, h.cfg]; exact hs.bufferBound
      heapWf := hwf
      heapBound := hbound
      heapZero := hzero
      faultAtPc := fun r hr => by rw [h.fault, hfault] at hr; cases hr
      regsWritten := fun hp r => h.reg_written (hs.regsWritten (h.cfg ▸ hp) r)
      flagWritten := fun hp => h.flag_written (hs.flagWritten (h.cfg ▸ hp))
      remWritten := fun hp => h.rem_written (hs.remWritten (h.cfg ▸ hp)) }

/-- Settles O51, by the four things a step can do: two change the outcome alone, a fault is taken only where an opcode
byte stands at pc, and an instruction completes. -/
theorem stepKeepsTheInvariant : Obligations.StepKeepsTheInvariant := by
  intro s t hs hstep
  rcases step_cases hstep with ⟨r, -, rfl⟩ | ⟨-, -, rfl⟩ | ⟨-, hfetch, f, rfl⟩ | ⟨hfault, i, -, -, hcompleted⟩
  · exact hs.withOutcome _
  · exact hs.withOutcome _
  · have hpc : s.pc.toNat < s.buffer.size := Nat.lt_of_not_le (mt State.fetch_noOpcode.2 hfetch)
    exact hs.raise hpc f
  · exact hcompleted.inv hs hfault

end Sys2Proof.Machine

/-! PROOF. Relations that one step keeps: states that the snapshot shows alike, and a state beside itself with another
outcome field. -/

namespace Sys2Proof.Machine

/-! ### States that the snapshot shows alike -/

/-- The fetch reads the configuration, the buffer and pc only (40_step.md R101). -/
theorem State.Alike.fetch {s t : State} (h : s.Alike t) : s.fetch = t.fetch := by
  unfold State.fetch
  rw [h.cfg, h.buffer, h.pc]

theorem State.Alike.stepNoInstr {s t : State} (h : s.Alike t) (e : DecodeError) :
    (s.stepNoInstr e).outcome = (t.stepNoInstr e).outcome ∧ (s.stepNoInstr e).Alike (t.stepNoInstr e) := by
  cases e with
  | noOpcode => exact ⟨rfl, h.withOutcome _⟩
  | truncated => exact ⟨rfl, h.raise _⟩

/-- A step takes states shown alike to states shown alike, with one outcome. -/
theorem step_alike {s t s' : State} (h : s.Alike t) (hs : step s = .next s') :
    ∃ t', step t = .next t' ∧ s'.outcome = t'.outcome ∧ s'.Alike t' := by
  cases hfault : s.fault with
  | some r =>
    rw [step_of_fault hfault] at hs
    cases hs
    exact ⟨_, step_of_fault (h.fault ▸ hfault), rfl, h.withOutcome _⟩
  | none =>
    cases hfetch : s.fetch with
    | error e =>
      rw [step_of_error hfault hfetch] at hs
      cases hs
      exact ⟨_, step_of_error (h.fault ▸ hfault) (h.fetch ▸ hfetch), h.stepNoInstr e⟩
    | ok i =>
      rw [step_of_fetch hfault hfetch] at hs
      rw [step_of_fetch (h.fault ▸ hfault) (h.fetch ▸ hfetch)]
      exact exec_alike h i hs

/-- Settles O53: the snapshot's relation is `State.Alike`, which a step keeps. -/
theorem hiddenValuesNeverShow : Obligations.HiddenValuesNeverShow := by
  intro s t s' hcfg hshown hs
  obtain ⟨t', ht, houtcome, halike⟩ := step_alike (alike_iff.1 ⟨hcfg, hshown⟩) hs
  exact ⟨t', ht, houtcome, alike_iff.2 halike⟩

/-! ### The outcome field -/

/-- No step reads what the last step returned: the fault record and the fetch do not, and by `exec_outcome` no
instruction does. -/
theorem step_withOutcome (s : State) (o : StepOutcome) : step (s.withOutcome o) = step s := by
  have hfetch : (s.withOutcome o).fetch = s.fetch := rfl
  cases hfault : s.fault with
  | some r =>
    rw [step_of_fault hfault, step_of_fault (s := s.withOutcome o) hfault]
    rfl
  | none =>
    cases hi : s.fetch with
    | error e =>
      rw [step_of_error hfault hi, step_of_error (s := s.withOutcome o) hfault (hfetch.trans hi)]
      cases e <;> rfl
    | ok i =>
      rw [step_of_fetch hfault hi, step_of_fetch (s := s.withOutcome o) hfault (hfetch.trans hi)]
      exact exec_outcome i s o

/-- Settles O25: `step_withOutcome`, with the record update for `State.withOutcome`. -/
theorem outcomeIsNeverRead : Obligations.OutcomeIsNeverRead :=
  step_withOutcome

end Sys2Proof.Machine

/-! PROOF. The order of checks (40_step.md R103): an operand form that faults decides the instruction. -/

namespace Sys2Proof.Machine

/-- `State.raise` and `State.faultEntry` are one fault entry where an opcode byte stands at pc. -/
theorem State.raise_eq_faultEntry {s : State} {ob : Byte} (f : Fault) (h : s.buffer.read s.pc.toNat = some ob) :
    s.raise f = s.faultEntry f ob :=
  State.raise_of_read f h

/-- The first part of an instruction that faults decides it. -/
theorem State.settle_bind_error {α : Type} {s : State} {m : Except Fault α} {k : α → Except Fault State}
    {o : StepOutcome} {f : Fault} (h : m = .error f) : s.settle (m >>= k) o = .next (s.raise f) := by
  rw [h]
  rfl

/-! ### Check 2: register fields -/

/-- An instruction with a register field of 32 or more raises `BadRegister`, whatever the state holds. -/
theorem exec_badRegister {i : Instr} (s : State) (h : ∃ f ∈ i.regFields, 32 ≤ f.toNat) :
    exec i s = .next (s.raise .badRegister) := by
  have hone : ∀ {t : Byte}, (∃ f ∈ [t], 32 ≤ f.toNat) → 32 ≤ t.toNat := by simp
  cases i with
  | load d imm => exact State.settle_bind_error (regIndex_bad (hone h))
  | add a b d | sub a b d | mul a b d | div a b d => exact State.settle_bind_error (s.operandsRRR_bad h)
  | eq a b | neq a b | gt a b | lt a b | gtq a b | ltq a b => exact State.settle_bind_error (s.operandsRR_bad h)
  | jmp t | jmpf t | jmpb t | aloc t => exact State.settle_bind_error (s.operandR_bad (hone h))
  | jeq t | jneq t => exact State.settle_bind_error (s.operandRFlag_bad (hone h))
  | halt | nop | illegal => simp [Instr.regFields] at h

/-- Settles O27: `exec_badRegister`, with the opcode byte that stands at pc. -/
theorem badRegisterComesBeforeReads : Obligations.BadRegisterComesBeforeReads := by
  intro s i ob hob hbad
  rw [exec_badRegister s hbad, State.raise_eq_faultEntry _ hob]

/-! ### Check 3: unwritten reads -/

/-- One of the registers that the fields name is unreadable. -/
def State.SomeUnreadable (s : State) (fields : List Byte) : Prop :=
  ∃ r, regByte r ∈ fields ∧ ¬ s.RegReadable r

theorem State.SomeUnreadable.one {s : State} {t : RegId} (h : s.SomeUnreadable [regByte t]) : ¬ s.RegReadable t := by
  obtain ⟨r, hr, hn⟩ := h
  rwa [← regByte_injective (List.mem_singleton.1 hr)]

theorem State.SomeUnreadable.two {s : State} {a b : RegId} (h : s.SomeUnreadable [regByte a, regByte b]) :
    ¬ s.RegReadable a ∨ ¬ s.RegReadable b := by
  obtain ⟨r, hr, hn⟩ := h
  rcases List.mem_pair.1 hr with hr | hr
  · exact .inl (regByte_injective hr ▸ hn)
  · exact .inr (regByte_injective hr ▸ hn)

theorem State.operandsRRR_unreadable {s : State} {a b d : Byte} (hlt : ∀ f ∈ [a, b, d], f.toNat < 32)
    (h : s.SomeUnreadable [a, b]) : s.operandsRRR a b d = .error .unwrittenRead := by
  obtain ⟨ia, rfl⟩ := exists_regByte (hlt a (by simp))
  obtain ⟨ib, rfl⟩ := exists_regByte (hlt b (by simp))
  obtain ⟨id, rfl⟩ := exists_regByte (hlt d (by simp))
  exact s.operandsRRR_unwritten ia ib id h.two

theorem State.operandsRR_unreadable {s : State} {a b : Byte} (hlt : ∀ f ∈ [a, b], f.toNat < 32)
    (h : s.SomeUnreadable [a, b]) : s.operandsRR a b = .error .unwrittenRead := by
  obtain ⟨ia, rfl⟩ := exists_regByte (hlt a (by simp))
  obtain ⟨ib, rfl⟩ := exists_regByte (hlt b (by simp))
  exact s.operandsRR_unwritten ia ib h.two

theorem State.operandR_unreadable {s : State} {t : Byte} (hlt : ∀ f ∈ [t], f.toNat < 32)
    (h : s.SomeUnreadable [t]) : s.operandR t = .error .unwrittenRead := by
  obtain ⟨it, rfl⟩ := exists_regByte (hlt t (by simp))
  exact s.operandR_unwritten it h.one

theorem State.operandRFlag_unreadable {s : State} {t : Byte} (hlt : ∀ f ∈ [t], f.toNat < 32)
    (h : s.SomeUnreadable [t] ∨ ¬ s.FlagReadable) : s.operandRFlag t = .error .unwrittenRead := by
  obtain ⟨it, rfl⟩ := exists_regByte (hlt t (by simp))
  exact s.operandRFlag_unwritten it (h.imp_left State.SomeUnreadable.one)

/-- An instruction whose fields all name registers and that reads something unreadable raises `UnwrittenRead`. -/
theorem exec_unwrittenRead {i : Instr} {s : State} (hlt : ∀ f ∈ i.regFields, f.toNat < 32)
    (h : s.SomeUnreadable i.readFields ∨ ((i.op = .jeq ∨ i.op = .jneq) ∧ ¬ s.FlagReadable)) :
    exec i s = .next (s.raise .unwrittenRead) := by
  have hreg (hop : ¬ (i.op = .jeq ∨ i.op = .jneq)) : s.SomeUnreadable i.readFields :=
    h.resolve_right fun hflag => hop hflag.1
  cases i with
  | add a b d | sub a b d | mul a b d | div a b d =>
    exact State.settle_bind_error (State.operandsRRR_unreadable hlt (hreg (by simp [Instr.op])))
  | eq a b | neq a b | gt a b | lt a b | gtq a b | ltq a b =>
    exact State.settle_bind_error (State.operandsRR_unreadable hlt (hreg (by simp [Instr.op])))
  | jmp t | jmpf t | jmpb t | aloc t =>
    exact State.settle_bind_error (State.operandR_unreadable hlt (hreg (by simp [Instr.op])))
  | jeq t | jneq t =>
    exact State.settle_bind_error (State.operandRFlag_unreadable hlt (h.imp_right And.right))
  | load d imm | halt | nop | illegal =>
    obtain ⟨r, hr, -⟩ := hreg (by simp [Instr.op])
    cases hr

/-- Settles O28: under the policy `Unwritten` an unwritten cell is an unreadable one, and `exec_unwrittenRead`. -/
theorem unwrittenReadComesBeforeOwnChecks : Obligations.UnwrittenReadComesBeforeOwnChecks := by
  intro s i ob hob hpolicy hlt h
  have hreg {r : RegId} (hr : (s.reg r).written = false) : ¬ s.RegReadable r := by
    simp [State.RegReadable, hpolicy, hr]
  have hflag (hf : s.flag.written = false) : ¬ s.FlagReadable := by
    simp [State.FlagReadable, hpolicy, hf]
  rw [← State.raise_eq_faultEntry _ hob]
  refine exec_unwrittenRead hlt (h.imp ?_ (And.imp_right hflag))
  rintro ⟨r, hmem, hr⟩
  exact ⟨r, hmem, hreg hr⟩

end Sys2Proof.Machine

/-! PROOF. What one instruction leaves unchanged: the frame of each row of 10_state.md R22, read off `exec_cases`. -/

namespace Sys2Proof.Machine

/-- A heap that is kept or grown is no shorter, and its earlier bytes read as before (20_memory.md R44). -/
theorem Memory.read_of_kept_or_grown {m m' : Memory} (h : m' = m ∨ ∃ n, m' = m.growZero n) :
    m.size ≤ m'.size ∧ ∀ a, a < m.size → m'.read a = m.read a := by
  rcases h with rfl | ⟨n, rfl⟩
  · exact ⟨Nat.le_refl _, fun _ _ => rfl⟩
  · exact ⟨Nat.le_add_right _ _, fun _ ha => m.growZero_read_old n ha⟩

theorem Completed.heap_kept_or_grown {i : Instr} {s t : State} (h : Completed i s t) :
    t.heap = s.heap ∨ ∃ n, t.heap = s.heap.growZero n :=
  h.heap.imp_right fun ⟨_, n, hn, _⟩ => ⟨n, hn⟩

theorem State.SameStores.of_eq {s t : State} (hb : t.buffer = s.buffer) (hh : t.heap = s.heap) : s.SameStores t where
  bufferSize := by rw [hb]
  bufferRead := fun _ => by rw [hb]
  heapSize := by rw [hh]
  heapRead := fun _ => by rw [hh]

/-- What an instruction leaves unchanged, whether it completes or takes a fault. -/
structure ExecFrame (i : Instr) (s t : State) : Prop where
  cfg : t.cfg = s.cfg
  buffer : t.buffer = s.buffer
  regs : ∀ r, i.destField ≠ some (regByte r) → t.reg r = s.reg r
  flag : i.op.format ≠ .rr → t.flag = s.flag
  rem : i.op ≠ .div → t.rem = s.rem
  heap : i.op ≠ .aloc → t.heap = s.heap
  heapBytes : ∀ a, a < s.heap.size → t.heap.read a = s.heap.read a
  fault : t.fault = s.fault ∨ ∃ f, t = s.raise f

theorem exec_frame {i : Instr} {s t : State} (h : exec i s = .next t) : ExecFrame i s t := by
  rcases exec_cases h with ⟨f, rfl⟩ | hc
  · exact ⟨rfl, rfl, fun _ _ => rfl, fun _ => rfl, fun _ => rfl, fun _ => rfl, fun _ _ => rfl, .inr ⟨f, rfl⟩⟩
  · exact
      { cfg := hc.cfg
        buffer := hc.buffer
        regs := hc.regs
        flag := fun hop => hc.flag.resolve_right fun hw => hop hw.1
        rem := fun hop => hc.rem.resolve_right fun hw => hop hw.1
        heap := fun hop => hc.heap.resolve_right fun hw => hop hw.1
        heapBytes := (Memory.read_of_kept_or_grown hc.heap_kept_or_grown).2
        fault := .inl hc.fault }

theorem ExecFrame.sameStores {i : Instr} {s t : State} (h : ExecFrame i s t) (hop : i.op ≠ .aloc) : s.SameStores t :=
  .of_eq h.buffer (h.heap hop)

theorem ExecFrame.regs_of_no_dest {i : Instr} {s t : State} (h : ExecFrame i s t) (hd : i.destField = none)
    (r : RegId) : t.reg r = s.reg r :=
  h.regs r (by simp [hd])

/-- Settles O41: the frame of an instruction with the destination `d` that is no comparison and not aloc. -/
theorem registerWritersFrame : Obligations.RegisterWritersFrame := by
  intro s t a b d imm i hi h
  have hrow : i.destField = some d ∧ i.op.format ≠ .rr ∧ i.op ≠ .aloc ∧ (i ≠ .div a b d → i.op ≠ .div) := by
    revert i
    simp [Instr.destField, Instr.op, Op.format]
  obtain ⟨hdest, hrr, haloc, hdiv⟩ := hrow
  have hframe := exec_frame h
  refine ⟨fun r hr => hframe.regs r ?_, hframe.flag hrr, hframe.sameStores haloc, hframe.cfg,
    fun hne => hframe.rem (hdiv hne), hframe.fault.imp_right ?_⟩
  · simpa [hdest] using hr.symm
  · rintro ⟨f, rfl⟩
    exact ⟨f, rfl, rfl, rfl, rfl⟩

/-- Settles O42: the frame of an instruction with no destination that is neither div nor aloc. -/
theorem comparisonsFrame : Obligations.ComparisonsFrame := by
  intro s t a b i hi h
  have hrow : i.destField = none ∧ i.op ≠ .div ∧ i.op ≠ .aloc := by
    revert i
    simp [Instr.destField, Instr.op]
  obtain ⟨hdest, hdiv, haloc⟩ := hrow
  have hframe := exec_frame h
  refine ⟨hframe.regs_of_no_dest hdest, hframe.rem hdiv, hframe.sameStores haloc, hframe.cfg,
    hframe.fault.imp_right ?_⟩
  rintro ⟨f, rfl⟩
  exact ⟨f, rfl, rfl, rfl⟩

/-- Settles O43: the frame of an instruction with no destination that is no comparison and neither div nor aloc. -/
theorem jumpsAndControlFrame : Obligations.JumpsAndControlFrame := by
  intro s t r i hi h
  have hrow : i.destField = none ∧ i.op.format ≠ .rr ∧ i.op ≠ .div ∧ i.op ≠ .aloc := by
    revert i
    simp [Instr.destField, Instr.op, Op.format]
  obtain ⟨hdest, hrr, hdiv, haloc⟩ := hrow
  have hframe := exec_frame h
  refine ⟨hframe.regs_of_no_dest hdest, hframe.flag hrr, hframe.rem hdiv, hframe.sameStores haloc, hframe.cfg,
    hframe.fault.imp_right ?_⟩
  rintro ⟨f, rfl⟩
  exact ⟨f, rfl, rfl⟩

/-- Settles O44: the frame of aloc, whose heap is kept or grown. -/
theorem alocFrame : Obligations.AlocFrame := by
  intro s t r h
  have hframe := exec_frame h
  refine ⟨hframe.regs_of_no_dest rfl, hframe.flag nofun, hframe.rem nofun, hframe.cfg,
    by rw [hframe.buffer], fun a => by rw [hframe.buffer], hframe.heapBytes, hframe.fault.imp_right ?_⟩
  rintro ⟨f, rfl⟩
  exact ⟨f, rfl, rfl, .of_eq rfl rfl⟩

end Sys2Proof.Machine

/-! PROOF. What one step can change of the flag, `rem`, the byte stores and the unwritten marks, read off
`step_cases`. -/

namespace Sys2Proof.Machine

/-! ### Instructions that end -/

/-- An instruction that takes no fault passed every check and commits its writes. -/
theorem State.settle_completed {s t : State} {r : Except Fault State} {o : StepOutcome} (h : s.settle r o = .next t)
    (hc : ∀ f, t.outcome ≠ .faulted f) : ∃ u, r = .ok u ∧ t = u.withOutcome o := by
  rcases State.settle_cases h with ⟨f, -, rfl⟩ | hu
  · exact absurd rfl (hc f)
  · exact hu

/-- An instruction that takes no fault and is neither halt nor illegal answers `Continue` (40_step.md R109). -/
theorem exec_continues {i : Instr} {s t : State} (h : exec i s = .next t) (hc : ∀ f, t.outcome ≠ .faulted f)
    (hhalt : i.op ≠ .halt) (hillegal : i.op ≠ .illegal) : t.outcome = .continues := by
  have hend {r : Except Fault State} (h : s.settle r .continues = .next t) : t.outcome = .continues := by
    obtain ⟨u, -, rfl⟩ := State.settle_completed h hc
    rfl
  cases i with
  | halt => exact absurd rfl hhalt
  | illegal => exact absurd rfl hillegal
  | load | add | sub | mul | div | jmp | jmpf | jmpb | eq | neq | gt | lt | gtq | ltq | jeq | jneq | aloc =>
    exact hend h
  | nop => cases h; rfl

/-! ### Only a completed instruction changes the flag, `rem` or the heap -/

/-- A part of the state that the outcome field and fault entry leave alone changes only where an instruction completes
(60_exceptions.md R211). -/
theorem step_completed_of_ne {α : Type} (part : State → α) (hpart : ∀ s o, part (s.withOutcome o) = part s)
    (hraise : ∀ s f, part (s.raise f) = part s) {s t : State} (h : step s = .next t) (hne : part t ≠ part s) :
    s.fault = none ∧ ∃ i, s.fetch = .ok i ∧ exec i s = .next t ∧ Completed i s t := by
  rcases step_cases h with ⟨r, -, rfl⟩ | ⟨-, -, rfl⟩ | ⟨-, -, f, rfl⟩ | hcompleted
  · exact absurd (hpart s _) hne
  · exact absurd (hpart s _) hne
  · exact absurd (hraise s f) hne
  · exact hcompleted

theorem Op.mem_comparisons_of_rr {op : Op} (h : op.format = .rr) : op ∈ [Op.eq, .neq, .gt, .lt, .gtq, .ltq] := by
  revert h
  cases op <;> decide

/-- Settles O46: the change forces a completed instruction, whose `Completed` names the operations that can make it. -/
theorem onlyComparisonsWriteFlagOnlyDivWritesRem : Obligations.OnlyComparisonsWriteFlagOnlyDivWritesRem := by
  intro s t h
  refine ⟨fun hne => ?_, fun hne => ?_⟩
  · obtain ⟨hfault, i, hfetch, hexec, hc⟩ := step_completed_of_ne State.flag (fun _ _ => rfl) (fun _ _ => rfl) h hne
    obtain ⟨rest, hdecode⟩ := State.fetch_ok hfetch
    have hrr : i.op.format = .rr := (hc.flag.resolve_left hne).1
    have hcontinues : t.outcome = .continues :=
      exec_continues hexec hc.outcome (fun e => by simp [e, Op.format] at hrr) (fun e => by simp [e, Op.format] at hrr)
    exact ⟨hfault, hc.fault.trans hfault, hcontinues, i, rest, hdecode, Op.mem_comparisons_of_rr hrr⟩
  · obtain ⟨hfault, i, hfetch, hexec, hc⟩ := step_completed_of_ne State.rem (fun _ _ => rfl) (fun _ _ => rfl) h hne
    obtain ⟨rest, hdecode⟩ := State.fetch_ok hfetch
    have hdiv : i.op = .div := (hc.rem.resolve_left hne).1
    have hcontinues : t.outcome = .continues :=
      exec_continues hexec hc.outcome (by simp [hdiv]) (by simp [hdiv])
    exact ⟨hfault, hc.fault.trans hfault, hcontinues, i, rest, hdecode, hdiv⟩

/-- A step keeps the buffer, and keeps the heap or grows it (20_memory.md R44, R45). -/
theorem step_stores {s t : State} (h : step s = .next t) :
    t.buffer = s.buffer ∧ (t.heap = s.heap ∨ ∃ n, t.heap = s.heap.growZero n) := by
  rcases step_cases h with ⟨r, -, rfl⟩ | ⟨-, -, rfl⟩ | ⟨-, -, f, rfl⟩ | ⟨-, i, -, -, hc⟩
  · exact ⟨rfl, .inl rfl⟩
  · exact ⟨rfl, .inl rfl⟩
  · exact ⟨rfl, .inl rfl⟩
  · exact ⟨hc.buffer, hc.heap_kept_or_grown⟩

/-- Settles O47: `step_stores`, and a changed heap forces a completed aloc. -/
theorem heapOnlyGrowsAndBufferIsReadOnly : Obligations.HeapOnlyGrowsAndBufferIsReadOnly := by
  intro s t h
  obtain ⟨hbuffer, hheap⟩ := step_stores h
  obtain ⟨hsize, hread⟩ := Memory.read_of_kept_or_grown hheap
  refine ⟨hbuffer, hsize, hread, fun hne => ?_⟩
  obtain ⟨-, i, hfetch, -, hc⟩ := step_completed_of_ne State.heap (fun _ _ => rfl) (fun _ _ => rfl) h hne
  obtain ⟨rest, hdecode⟩ := State.fetch_ok hfetch
  exact ⟨i, rest, hdecode, (hc.heap.resolve_left hne).1⟩

/-! ### Under the `Zero` policy nothing raises `UnwrittenRead` -/

/-- A computation that does not raise `UnwrittenRead`. -/
def NeverUnwrittenRead {α : Type} (m : Except Fault α) : Prop := m ≠ .error .unwrittenRead

theorem NeverUnwrittenRead.ok {α : Type} (v : α) : NeverUnwrittenRead (.ok v) := nofun

theorem NeverUnwrittenRead.bind {α β : Type} {m : Except Fault α} {k : α → Except Fault β}
    (hm : NeverUnwrittenRead m) (hk : ∀ a, NeverUnwrittenRead (k a)) : NeverUnwrittenRead (m >>= k) := by
  intro h
  rcases bind_eq_error h with h | ⟨a, -, h⟩
  · exact hm h
  · exact hk a h

theorem regIndex_neverUnwrittenRead (field : Byte) : NeverUnwrittenRead (regIndex field) := by
  rcases regIndex_cases field with ⟨_, -, h⟩ | ⟨-, h⟩ <;> simp [NeverUnwrittenRead, h]

theorem Cell.read_neverUnwrittenRead {α : Type} (c : Cell α) {p : ResetPolicy} (hp : p = .zero) :
    NeverUnwrittenRead (c.read p) := by
  rw [hp, Cell.read_readable c.readable_zero]
  exact .ok _

theorem aluDiv_neverUnwrittenRead (x y : Word) : NeverUnwrittenRead (aluDiv x y) := fun h => by
  rcases aluDiv_faults h with h | h <;> cases h

theorem relativeTarget_neverUnwrittenRead (v : Int) : NeverUnwrittenRead (relativeTarget v) := fun h => by
  cases relativeTarget_faults h

theorem State.allocCount_neverUnwrittenRead (s : State) (x : Word) : NeverUnwrittenRead (s.allocCount x) := fun h => by
  rcases State.allocCount_faults h with h | h <;> cases h

section
variable {s : State} (hp : s.cfg.resetPolicy = .zero)
include hp

theorem State.operandsRRR_neverUnwrittenRead (a b d : Byte) : NeverUnwrittenRead (s.operandsRRR a b d) :=
  (regIndex_neverUnwrittenRead a).bind fun _ => (regIndex_neverUnwrittenRead b).bind fun _ =>
    (regIndex_neverUnwrittenRead d).bind fun _ => (Cell.read_neverUnwrittenRead _ hp).bind fun _ =>
      (Cell.read_neverUnwrittenRead _ hp).bind fun _ => .ok _

theorem State.operandsRR_neverUnwrittenRead (a b : Byte) : NeverUnwrittenRead (s.operandsRR a b) :=
  (regIndex_neverUnwrittenRead a).bind fun _ => (regIndex_neverUnwrittenRead b).bind fun _ =>
    (Cell.read_neverUnwrittenRead _ hp).bind fun _ => (Cell.read_neverUnwrittenRead _ hp).bind fun _ => .ok _

theorem State.operandR_neverUnwrittenRead (t : Byte) : NeverUnwrittenRead (s.operandR t) :=
  (regIndex_neverUnwrittenRead t).bind fun _ => Cell.read_neverUnwrittenRead _ hp

theorem State.operandRFlag_neverUnwrittenRead (t : Byte) : NeverUnwrittenRead (s.operandRFlag t) :=
  (State.operandR_neverUnwrittenRead hp t).bind fun _ => (Cell.read_neverUnwrittenRead _ hp).bind fun _ => .ok _

/-- Under the `Zero` policy no instruction raises `UnwrittenRead` (10_state.md R21). -/
theorem exec_neverUnwrittenRead {i : Instr} {t : State} (h : exec i s = .next t) :
    t.outcome ≠ .faulted .unwrittenRead := by
  intro ht
  have hend {α : Type} {m : Except Fault α} {k : α → Except Fault State} (h : s.settle (m >>= k) .continues = .next t)
      (hm : NeverUnwrittenRead m) (hk : ∀ a, NeverUnwrittenRead (k a)) : False := by
    rcases State.settle_cases h with ⟨f, hf, rfl⟩ | ⟨u, -, rfl⟩
    · cases ht
      exact hm.bind hk hf
    · cases ht
  cases i with
  | load d imm => exact hend h (regIndex_neverUnwrittenRead d) fun _ => .ok _
  | add a b d | sub a b d | mul a b d => exact hend h (State.operandsRRR_neverUnwrittenRead hp a b d) fun _ => .ok _
  | div a b d =>
    exact hend h (State.operandsRRR_neverUnwrittenRead hp a b d) fun _ =>
      (aluDiv_neverUnwrittenRead _ _).bind fun _ => .ok _
  | jmp r => exact hend h (State.operandR_neverUnwrittenRead hp r) fun _ => .ok _
  | jmpf r | jmpb r =>
    exact hend h (State.operandR_neverUnwrittenRead hp r) fun _ =>
      (relativeTarget_neverUnwrittenRead _).bind fun _ => .ok _
  | eq a b | neq a b | gt a b | lt a b | gtq a b | ltq a b =>
    exact hend h (State.operandsRR_neverUnwrittenRead hp a b) fun _ => .ok _
  | jeq r | jneq r => exact hend h (State.operandRFlag_neverUnwrittenRead hp r) fun _ => .ok _
  | aloc r =>
    exact hend h (State.operandR_neverUnwrittenRead hp r) fun _ =>
      (s.allocCount_neverUnwrittenRead _).bind fun _ => .ok _
  | halt | nop | illegal => cases h; cases ht

theorem step_neverUnwrittenRead {t : State} (hfault : s.fault = none) (h : step s = .next t) :
    t.outcome ≠ .faulted .unwrittenRead := by
  cases hfetch : s.fetch with
  | error e =>
    rw [step_of_error hfault hfetch] at h
    cases h
    cases e <;> exact nofun
  | ok i =>
    rw [step_of_fetch hfault hfetch] at h
    exact exec_neverUnwrittenRead hp h

end

/-! ### Written cells stay written -/

/-- Settles O29: only a completed instruction changes a cell, and it leaves the cell or writes it. -/
theorem writtenCellsStayWritten : Obligations.WrittenCellsStayWritten := by
  intro s t hfault h
  refine ⟨fun hp => step_neverUnwrittenRead hp hfault h, ?_⟩
  rcases step_cases h with ⟨r, -, rfl⟩ | ⟨-, -, rfl⟩ | ⟨-, -, f, rfl⟩ | ⟨-, i, -, -, hc⟩
  · exact ⟨fun _ => id, id, id⟩
  · exact ⟨fun _ => id, id, id⟩
  · exact ⟨fun _ => id, id, id⟩
  · exact ⟨fun _ => hc.reg_written, hc.flag_written, hc.rem_written⟩

end Sys2Proof.Machine

/-! PROOF. Where each instruction leaves pc (10_state.md R24, R25), exactly and with no wrap. -/

namespace Sys2Proof.Machine

/-! ### No sum wraps -/

/-- 10_state.md R25: in a state that meets the invariant the buffer, and so every offset up to its end, is below
2^31. -/
theorem State.Inv.buffer_size_lt {s : State} (h : s.Inv) : s.buffer.size < 2 ^ 31 := by
  have hbound := h.bufferBound
  have hcfg := h.cfgWf
  simp only [Config.wf, Config.maxProgramBytesOk, Bool.and_eq_true, decide_eq_true_eq] at hcfg
  omega

/-- An instruction that was decoded at pc lies in the buffer as a whole (40_step.md R102). -/
theorem State.decoded_fits {s : State} {i : Instr} {rest : List Byte}
    (h : decode s.cfg (s.buffer.window s.pc.toNat 4) = .ok (i, rest)) : s.pc.toNat + i.op.length ≤ s.buffer.size := by
  obtain ⟨ob, -, hbytes⟩ := decode_ok h
  have hlen := congrArg List.length hbytes
  rw [Memory.window_length, List.length_cons, List.length_append] at hlen
  have := operandBytes_length i
  omega

theorem add_ofNat_toNat {p : Word} {n : Nat} (h : p.toNat + n < 2 ^ 32) :
    (p + BitVec.ofNat 32 n).toNat = p.toNat + n := by
  rw [BitVec.toNat_add, BitVec.toNat_ofNat]
  omega

/-- The exact target of a relative jump that lies in the buffer fits in pc (43_jumps.md R151, R152). -/
theorem State.Inv.relative_target_lt {s : State} (h : s.Inv) (hpc : s.pc.toNat + 2 ≤ s.buffer.size) (w : Word) :
    (s.pc.toNat + 2 : Int) + s32 w < 2 ^ 32 ∧ (s.pc.toNat + 2 : Int) - s32 w < 2 ^ 32 := by
  have := h.buffer_size_lt
  have := s32_bounds w
  omega

/-! ### Relative jumps -/

/-- The common frame of jmpf and jmpb: the exact target as a function of the register (43_jumps.md R151, R152). -/
def State.relativeJump (s : State) (t : Byte) (target : Word → Int) : Host.Outcome State Fault Refusal :=
  s.settle (do
    let x ← s.operandR t
    let v ← relativeTarget (target x)
    return s.setPc v) .continues

theorem exec_jmpf (t : Byte) (s : State) :
    exec (.jmpf t) s = s.relativeJump t (fun x => (s.pc.toNat + 2 : Int) + s32 x) := rfl

theorem exec_jmpb (t : Byte) (s : State) :
    exec (.jmpb t) s = s.relativeJump t (fun x => (s.pc.toNat + 2 : Int) - s32 x) := rfl

section
variable {s : State} {r : RegId} {target : Word → Int}

theorem State.relativeJump_ok (hr : s.RegReadable r) (h0 : 0 ≤ target (s.reg r).value) :
    s.relativeJump (regByte r) target = .next { s with pc := u32 (target (s.reg r).value), outcome := .continues } := by
  rw [State.relativeJump, State.operandR_ok s hr, bind_ok_right, relativeTarget_ok h0]
  rfl

theorem State.relativeJump_negative (hr : s.RegReadable r) (hneg : target (s.reg r).value < 0) :
    s.relativeJump (regByte r) target = .next (s.raise .pcUnderflow) := by
  rw [State.relativeJump, State.operandR_ok s hr, bind_ok_right, relativeTarget_error hneg]
  rfl

/-- A relative jump whose target fits: it completes at the exact target, or raises `PcUnderflow` where that is
negative. -/
theorem State.relativeJump_exact {ob : Byte} (hob : s.buffer.read s.pc.toNat = some ob) (hr : s.RegReadable r)
    (hlt : target (s.reg r).value < 2 ^ 32) :
    (0 ≤ target (s.reg r).value → ∃ v : Word, (v.toNat : Int) = target (s.reg r).value ∧
      s.relativeJump (regByte r) target = .next { s with pc := v, outcome := .continues }) ∧
    (target (s.reg r).value < 0 →
      s.relativeJump (regByte r) target = .next (s.faultEntry .pcUnderflow ob)) := by
  refine ⟨fun h0 => ⟨_, u32_toNat_of_lt h0 hlt, State.relativeJump_ok hr h0⟩, fun hneg => ?_⟩
  rw [State.relativeJump_negative hr hneg, State.raise_eq_faultEntry _ hob]

end

/-- Settles O35: jmpf and jmpb are the relative jumps, and in the buffer their targets fit. -/
theorem relativeJumpsCountFromTheNextByte : Obligations.RelativeJumpsCountFromTheNextByte := by
  intro s r ob hinv hr hpc hob p hp
  obtain ⟨hforward, hback⟩ := hinv.relative_target_lt hpc (s.reg r).value
  rcases List.mem_pair.1 hp with rfl | rfl
  · rw [exec_jmpf]
    exact State.relativeJump_exact (target := fun x => (s.pc.toNat + 2 : Int) + s32 x) hob hr hforward
  · rw [exec_jmpb]
    exact State.relativeJump_exact (target := fun x => (s.pc.toNat + 2 : Int) - s32 x) hob hr hback

/-! ### pc after a completed instruction -/

/-- The operations whose instructions leave pc at the next byte (10_state.md R24): all but the jumps. -/
def fallsThrough : Op → Bool
  | .jmp | .jmpf | .jmpb | .jeq | .jneq => false
  | .load | .add | .sub | .mul | .div | .halt | .eq | .neq | .gt | .lt | .gtq | .ltq | .aloc | .illegal | .nop => true

/-- `State.settle_completed` for an instruction whose operand form comes first. -/
theorem State.settle_bind_completed {α : Type} {s t : State} {m : Except Fault α} {k : α → Except Fault State}
    {o : StepOutcome} (h : s.settle (m >>= k) o = .next t) (hc : ∀ f, t.outcome ≠ .faulted f) :
    ∃ a u, m = .ok a ∧ k a = .ok u ∧ t = u.withOutcome o := by
  obtain ⟨u, hu, ht⟩ := State.settle_completed h hc
  obtain ⟨a, ha, hk⟩ := bind_eq_ok hu
  exact ⟨a, u, ha, hk, ht⟩

section
variable {s t : State} (hc : ∀ f, t.outcome ≠ .faulted f)
include hc

theorem exec_pc_of_fallsThrough {i : Instr} (h : exec i s = .next t) (hi : fallsThrough i.op = true) :
    t.pc = s.pc + BitVec.ofNat 32 i.op.length := by
  cases i with
  | load d imm =>
    obtain ⟨_, _, -, hk, rfl⟩ := State.settle_bind_completed h hc
    cases hk; rfl
  | add a b d | sub a b d | mul a b d | eq a b | neq a b | gt a b | lt a b | gtq a b | ltq a b =>
    obtain ⟨_, _, -, hk, rfl⟩ := State.settle_bind_completed h hc
    cases hk; rfl
  | div a b d | aloc r =>
    obtain ⟨_, _, -, hk, rfl⟩ := State.settle_bind_completed h hc
    obtain ⟨_, -, hk⟩ := bind_eq_ok hk
    cases hk; rfl
  | halt | illegal | nop => cases h; rfl
  | jmp | jmpf | jmpb | jeq | jneq => cases hi

theorem exec_jmp_pc {r : RegId} (h : exec (.jmp (regByte r)) s = .next t) : t.pc = (s.reg r).value := by
  obtain ⟨_, _, hx, hk, rfl⟩ := State.settle_bind_completed h hc
  obtain ⟨_, hr, -, rfl⟩ := State.operandR_inv hx
  cases hk
  rw [regByte_injective hr]
  rfl

/-- A relative jump that takes no fault and whose target fits leaves pc there. -/
theorem State.relativeJump_pc {r : RegId} {target : Word → Int} (h : s.relativeJump (regByte r) target = .next t)
    (hlt : target (s.reg r).value < 2 ^ 32) : (t.pc.toNat : Int) = target (s.reg r).value := by
  obtain ⟨_, _, hx, hk, rfl⟩ := State.settle_bind_completed h hc
  obtain ⟨q, hq, hr, rfl⟩ := State.operandR_inv hx
  obtain rfl := regByte_injective hq
  by_cases h0 : 0 ≤ target (s.reg r).value
  · rw [relativeTarget_ok h0] at hk
    cases hk
    exact u32_toNat_of_lt h0 hlt
  · rw [relativeTarget_error (Int.not_le.1 h0)] at hk
    cases hk

/-- A conditional jump that takes no fault goes to the register where the flag has the polarity, else to the next
byte. -/
theorem State.jumpIf_pc {r : RegId} {polarity : Bool} (h : s.jumpIf (regByte r) polarity = .next t) :
    t.pc = if s.flag.value = polarity then (s.reg r).value else s.pc + BitVec.ofNat 32 2 := by
  obtain ⟨⟨_, _⟩, _, hx, hk, rfl⟩ := State.settle_bind_completed h hc
  obtain ⟨q, hq, -, -, rfl, rfl⟩ := State.operandRFlag_inv hx
  obtain rfl := regByte_injective hq
  cases hk
  split <;> rfl

end

/-! ### pc after a step -/

/-- A fall-through instruction leaves pc at the next byte, with no wrap. -/
theorem exec_pc_toNat {i : Instr} {s t : State} (hs : s.Inv) (hfits : s.pc.toNat + i.op.length ≤ s.buffer.size)
    (h : exec i s = .next t) (hc : ∀ f, t.outcome ≠ .faulted f) (hi : fallsThrough i.op = true) :
    t.pc.toNat = s.pc.toNat + i.op.length := by
  have := hs.buffer_size_lt
  rw [exec_pc_of_fallsThrough hc h hi, add_ofNat_toNat (by omega)]

/-- A conditional jump by its polarity: the target is taken modulo 2^32, and the next byte does not wrap. -/
theorem State.jumpIf_pc_toNat {s t : State} {r : RegId} {polarity : Bool} (hs : s.Inv)
    (hfits : s.pc.toNat + 2 ≤ s.buffer.size) (h : s.jumpIf (regByte r) polarity = .next t)
    (hc : ∀ f, t.outcome ≠ .faulted f) :
    (s.flag.value = polarity → (t.pc.toNat : Int) = (s.reg r).value.toInt % 2 ^ 32) ∧
    (s.flag.value ≠ polarity → t.pc.toNat = s.pc.toNat + 2) := by
  have := hs.buffer_size_lt
  rw [State.jumpIf_pc hc h]
  refine ⟨fun htaken => ?_, fun hnot => ?_⟩
  · rw [if_pos htaken]
    exact toNat_eq_emod _
  · rw [if_neg hnot]
    exact add_ofNat_toNat (by omega)

/-- Settles O45: the end of the buffer and a fault leave pc, and each completed instruction leaves it as its lemma
above says. -/
theorem pcAfterEveryOutcome : Obligations.PcAfterEveryOutcome := by
  intro s t hs hfault h
  refine ⟨fun hend => ?_, fun f hf => ?_, fun i rest hdecode hc => ?_⟩
  · rw [step_of_error hfault (State.fetch_noOpcode.2 hend)] at h
    cases h; rfl
  · rcases step_cases h with ⟨r, -, rfl⟩ | ⟨-, -, rfl⟩ | ⟨-, -, g, rfl⟩ | ⟨-, i, -, -, hcompleted⟩
    · rfl
    · rfl
    · rfl
    · exact absurd hf (hcompleted.outcome f)
  · rw [step_of_fetch hfault (State.fetch_of_decode hdecode)] at h
    have hfits := State.decoded_fits hdecode
    have hrow {n : Nat} {ops : List Op} (hops : ∀ op ∈ ops, op.length = n ∧ fallsThrough op = true)
        (hi : i.op ∈ ops) : t.pc.toNat = s.pc.toNat + n := by
      obtain ⟨rfl, hfall⟩ := hops _ hi
      exact exec_pc_toNat hs hfits h hc hfall
    refine ⟨hrow (by decide), hrow (by decide), fun hi => hrow (ops := [.aloc]) (by decide) (by simp [hi]),
      hrow (by decide), ?_, ?_, ?_, ?_⟩
    · rintro r rfl
      rw [exec_jmp_pc hc h]
      exact toNat_eq_emod _
    · rintro r rfl
      exact State.relativeJump_pc hc (target := fun x => (s.pc.toNat + 2 : Int) + s32 x) h
        (hs.relative_target_lt hfits _).1
    · rintro r rfl
      exact State.relativeJump_pc hc (target := fun x => (s.pc.toNat + 2 : Int) - s32 x) h
        (hs.relative_target_lt hfits _).2
    · rintro r taken (⟨rfl, rfl⟩ | ⟨rfl, rfl⟩)
      · simpa using State.jumpIf_pc_toNat (polarity := true) hs hfits h hc
      · simpa using State.jumpIf_pc_toNat (polarity := false) hs hfits h hc

end Sys2Proof.Machine

/-! PROOF. The byte stores through the host's calls (20_memory.md): what one call can do, one induction over calls, and
the fetch of bytes that an append put at pc. -/

namespace Sys2Proof.Machine

/-! ### What one host call does -/

/-- Every step answers a next state: a fault and a halt are next states too (log entry 6). -/
theorem step_next (s : State) : ∃ t, step s = .next t := by
  cases hfault : s.fault with
  | some r => exact ⟨_, step_of_fault hfault⟩
  | none =>
    cases hfetch : s.fetch with
    | error e => exact ⟨_, step_of_error hfault hfetch⟩
    | ok i => rw [step_of_fetch hfault hfetch]; exact exec_next i s

/-- The host call `runOnce` leads to the state that one step answers (40_step.md R107). -/
theorem step_eq_apply_runOnce (s : State) : step s = .next (HostCall.apply s .runOnce) := by
  obtain ⟨t, ht⟩ := step_next s
  simp [HostCall.apply, runOnce, ht]

/-- An append past `MAX_PROGRAM_BYTES` is refused with no change, and any other puts the bytes at the buffer's end
(20_memory.md R41, D11). -/
theorem appendBytes_cases (s : State) (bs : List Byte) :
    (s.cfg.maxProgramBytes < s.buffer.size + bs.length ∧ appendBytes s bs = (s, false)) ∨
    (s.buffer.size + bs.length ≤ s.cfg.maxProgramBytes ∧
      appendBytes s bs = ({ s with buffer := s.buffer.append bs }, true)) := by
  rcases Nat.lt_or_ge s.cfg.maxProgramBytes (s.buffer.size + bs.length) with hpast | hfits
  · exact .inl ⟨hpast, if_pos hpast⟩
  · exact .inr ⟨hfits, if_neg (Nat.not_lt.2 hfits)⟩

theorem appendBytes_accepted {s t : State} {bs : List Byte} (h : appendBytes s bs = (t, true)) :
    t = { s with buffer := s.buffer.append bs } := by
  rcases appendBytes_cases s bs with ⟨-, hrefused⟩ | ⟨-, haccepted⟩
  · simp [hrefused] at h
  · exact (congrArg Prod.fst (haccepted.symm.trans h)).symm

/-- What an accepted append and a step keep, and reset where the call is one, a host call keeps: no other call changes
the state. -/
theorem HostCall.apply_keeps {P : State → Prop} {s : State} {c : HostCall} (hs : P s)
    (hreset : c = .reset → P (hostReset s))
    (happend : ∀ bs : List Byte, s.buffer.size + bs.length ≤ s.cfg.maxProgramBytes →
      P { s with buffer := s.buffer.append bs })
    (hstep : ∀ t, step s = .next t → P t) : P (c.apply s) := by
  cases c with
  | reset => exact hreset rfl
  | appendBytes bs =>
    change P (Machine.appendBytes s bs).1
    rcases appendBytes_cases s bs with ⟨-, h⟩ | ⟨hfits, h⟩ <;> rw [h]
    · exact hs
    · exact happend bs hfits
  | runOnce => exact hstep _ (step_eq_apply_runOnce s)
  | snapshot => exact hs
  | compile text => exact hs

/-- The induction over host calls: what holds at the start, and is kept by accepted appends, by steps, and by reset
where a reset is among the calls, holds after them. -/
theorem hostCalls_keeps {P : State → Prop} {s : State} {calls : List HostCall} (hs : P s)
    (hreset : .reset ∈ calls → ∀ u, P u → P (hostReset u))
    (happend : ∀ u (bs : List Byte), P u → u.buffer.size + bs.length ≤ u.cfg.maxProgramBytes →
      P { u with buffer := u.buffer.append bs })
    (hstep : ∀ u t, P u → step u = .next t → P t) : P (hostCalls s calls) :=
  List.foldlRecOn calls HostCall.apply hs fun u hu _ hc =>
    HostCall.apply_keeps hu (fun h => hreset (h ▸ hc) u hu) (fun bs => happend u bs hu) (fun t => hstep u t hu)

/-! ### The heap -/

theorem Memory.read_eq_zero_of_no_cells {m : Memory} (h : m.cells = []) {a : Nat} {v : Byte}
    (hread : m.read a = some v) : v = 0 := by
  rw [Memory.read_of_lt m (Memory.read_lt hread), h] at hread
  exact (Option.some.inj hread).symm

/-- A step lists no new byte of the heap: `HeapGrow` appends zeros, and a zero is not listed (20_memory.md R44). -/
theorem step_heap_cells {s t : State} (h : step s = .next t) : t.heap.cells = s.heap.cells := by
  rcases (step_stores h).2 with hkept | ⟨n, hgrown⟩
  · rw [hkept]
  · rw [hgrown]; rfl

/-- From any reset on no host call lists a byte of the heap, so every byte of it reads as 0. -/
theorem hostCalls_reset_heap_cells (s : State) (calls : List HostCall) :
    (hostCalls (hostReset s) calls).heap.cells = [] :=
  hostCalls_keeps (P := fun u => u.heap.cells = []) rfl (fun _ _ _ => rfl) (fun _ _ hu _ => hu)
    (fun _ _ hu hstep => (step_heap_cells hstep).trans hu)

/-- Settles O48: the laws of `growZero`, the heap clause of `Completed`, and no listed byte from any reset on. -/
theorem everyHeapByteIsZero : Obligations.EveryHeapByteIsZero := by
  refine ⟨fun m n hwf => ⟨m.growZero_size n, fun a ha => m.growZero_read_old n ha,
      fun a hold hnew => m.growZero_read_new n hwf hold hnew⟩, fun i s t hexec hne => ?_,
    fun s calls a v hread => Memory.read_eq_zero_of_no_cells (hostCalls_reset_heap_cells s calls) hread⟩
  rcases exec_cases hexec with ⟨f, rfl⟩ | hcompleted
  · exact absurd rfl hne
  · exact hcompleted.heap.resolve_left hne

/-! ### The buffer's bound -/

/-- No step changes the configuration (log entry 3). -/
theorem step_cfg {s t : State} (h : step s = .next t) : t.cfg = s.cfg := by
  rcases step_cases h with ⟨r, -, rfl⟩ | ⟨-, -, rfl⟩ | ⟨-, -, f, rfl⟩ | ⟨-, i, -, -, hcompleted⟩
  · rfl
  · rfl
  · rfl
  · exact hcompleted.cfg

/-- The configuration stays and the buffer is within its bound, through any host calls from any reset
(20_memory.md R41). -/
theorem hostCalls_reset_buffer_bound (s : State) (calls : List HostCall) :
    (hostCalls (hostReset s) calls).cfg = s.cfg ∧
      (hostCalls (hostReset s) calls).buffer.size ≤ s.cfg.maxProgramBytes := by
  refine hostCalls_keeps (P := fun u => u.cfg = s.cfg ∧ u.buffer.size ≤ s.cfg.maxProgramBytes)
    ⟨rfl, Nat.zero_le _⟩ ?_ ?_ ?_
  · rintro - u ⟨hcfg, -⟩
    exact ⟨hcfg, Nat.zero_le _⟩
  · rintro u bs ⟨hcfg, -⟩ hfits
    exact ⟨hcfg, by rw [Memory.append_size, ← hcfg]; exact hfits⟩
  · rintro u t ⟨hcfg, hbound⟩ hstep
    exact ⟨(step_cfg hstep).trans hcfg, by rw [(step_stores hstep).1]; exact hbound⟩

/-- The bound of 00_scope.md R8 on `MAX_PROGRAM_BYTES`. -/
theorem Config.maxProgramBytes_le {c : Config} (h : c.wf = true) : c.maxProgramBytes ≤ 2 ^ 31 - 1 := by
  simp only [Config.wf, Config.maxProgramBytesOk, Bool.and_eq_true, decide_eq_true_eq] at h
  exact h.2.2

/-- Settles O49: the two cases of an append, with the laws of `Memory.append`, and the bound through host calls. -/
theorem appendIsWholeOrRefused : Obligations.AppendIsWholeOrRefused := by
  refine ⟨fun s bs hwf => ?_, fun s calls hcfg =>
    ⟨(hostCalls_reset_buffer_bound s calls).2, Config.maxProgramBytes_le hcfg⟩⟩
  rcases appendBytes_cases s bs with ⟨hpast, hrefused⟩ | ⟨hfits, haccepted⟩
  · exact ⟨fun _ => hrefused, fun hfits => absurd hpast (Nat.not_lt.2 hfits)⟩
  · exact ⟨fun hpast => absurd hpast (Nat.not_lt.2 hfits), fun _ => ⟨s.buffer.append bs, haccepted,
      s.buffer.append_size bs, fun a ha => s.buffer.append_read_old bs ha,
      fun k hk => s.buffer.append_read_new bs hwf k hk⟩⟩

/-! ### The next fetch -/

/-- Bytes that are one whole instruction and stand in the buffer from pc on are what the fetch reads
(40_step.md R101). -/
theorem State.fetch_of_bytes {s : State} {bs : List Byte} {i : Instr} (hdecode : decode s.cfg bs = .ok (i, []))
    (hread : ∀ k, k < bs.length → s.buffer.read (s.pc.toNat + k) = bs[k]?) : s.fetch = .ok i := by
  obtain ⟨ob, hop, rfl⟩ := decode_ok hdecode
  have hlength : (ob :: (operandBytes i ++ [])).length ≤ 4 := by
    simpa [operandBytes_length] using Op.length_le i.op
  obtain ⟨rest, hwindow⟩ := Memory.window_of_bytes 4 hlength hread
  refine State.fetch_of_decode (rest := rest) ?_
  rw [hwindow, List.append_nil]
  exact decode_of_operandBytes hop rest

/-- A byte of the buffer reads as it did after any host calls but reset (20_memory.md R50). -/
theorem hostCalls_buffer_read {s : State} {calls : List HostCall} (hcalls : ∀ c ∈ calls, c ≠ .reset) {a : Nat}
    {b : Byte} (h : s.buffer.read a = some b) : (hostCalls s calls).buffer.read a = some b := by
  refine hostCalls_keeps (P := fun u => u.buffer.read a = some b) h (fun hmem => absurd rfl (hcalls _ hmem)) ?_ ?_
  · exact fun u bs hu _ => (u.buffer.append_read_old bs (Memory.read_lt hu)).trans hu
  · exact fun u t hu hstep => by rw [(step_stores hstep).1]; exact hu

/-- Settles O50: the host calls keep the byte, and the appended bytes stand at pc, where the fetch reads
them. -/
theorem fetchableBytesKeepTheirValue : Obligations.FetchableBytesKeepTheirValue := by
  refine ⟨fun s calls a b hcalls hread => hostCalls_buffer_read hcalls hread,
    fun s t bs i hwf hfault hpc happend hdecode => ?_⟩
  obtain rfl := appendBytes_accepted happend
  refine step_of_fetch hfault (State.fetch_of_bytes hdecode fun k hk => ?_)
  exact hpc ▸ s.buffer.append_read_new bs hwf k hk

end Sys2Proof.Machine

/-! PROOF. The decoder and the encoder (30_encoding.md R62 to R65): the opcode byte read in both directions, and the two
round trips of a whole instruction. -/

namespace Sys2Proof

/-! ### What the bounds of 00_scope.md R8 say of the opcode bytes -/

/-- The opcode map gives no byte to nop or to the illegal operation. -/
theorem opcodeMap_getElem_ne {c : Config} (h : c.wf = true) {k : Nat} (hk : k < 18) :
    c.opcodeMap[k] ≠ .nop ∧ c.opcodeMap[k] ≠ .illegal := by
  obtain ⟨-, hnop, hillegal⟩ := opcodeMap_ok h
  have hmem : c.opcodeMap[k] ∈ c.opcodeMap.toList := by simp
  exact ⟨fun heq => hnop (heq ▸ hmem), fun heq => hillegal (heq ▸ hmem)⟩

theorem nopByte_ge {c : Config} (h : c.wf = true) {b : Byte} (hb : c.nopByte = some b) : 18 ≤ b.toNat := by
  simp only [Config.wf, Config.nopByteOk, hb, Bool.and_eq_true, decide_eq_true_eq] at h
  exact h.1.1.2

/-- The byte emitted for the illegal operation decodes back to it (30_encoding.md R63, D3). -/
theorem fromByte_illegalEncodeByte {c : Config} (h : c.wf = true) : fromByte c c.illegalEncodeByte = .illegal := by
  simp only [Config.wf, Config.illegalEncodeByteOk, Bool.and_eq_true, decide_eq_true_eq] at h
  exact fromByte_illegal h.1.2.1 h.1.2.2

/-! ### `fromByte` and `toByte` -/

/-- Everything an opcode byte can be: a byte of the opcode map, `NOP_BYTE`, or illegal. -/
theorem fromByte_cases (c : Config) (b : Byte) :
    (∃ hb : b.toNat < 18, fromByte c b = c.opcodeMap[b.toNat]) ∨
    (18 ≤ b.toNat ∧ c.nopByte = some b ∧ fromByte c b = .nop) ∨
    (18 ≤ b.toNat ∧ fromByte c b = .illegal) := by
  by_cases hb : b.toNat < 18
  · exact .inl ⟨hb, fromByte_map hb⟩
  · have hge := Nat.not_lt.1 hb
    by_cases hnop : c.nopByte = some b
    · exact .inr (.inl ⟨hge, hnop, fromByte_nop hge hnop⟩)
    · exact .inr (.inr ⟨hge, fromByte_illegal hge hnop⟩)

@[simp] theorem toByte_nop (c : Config) : toByte c .nop = c.nopByte := rfl

@[simp] theorem toByte_illegal (c : Config) : toByte c .illegal = none := rfl

/-- The place of an operation in the map is unique, so the byte at which it stands is its byte. -/
theorem toByte_getElem {c : Config} (h : c.wf = true) {b : Byte} (hb : b.toNat < 18) :
    toByte c c.opcodeMap[b.toNat] = some b := by
  obtain ⟨hnop, hillegal⟩ := opcodeMap_getElem_ne h hb
  have hplace : c.opcodeMap.toList.findIdx? (fun o => decide (o = c.opcodeMap[b.toNat])) = some b.toNat := by
    rw [List.findIdx?_eq_some_iff_getElem]
    refine ⟨by simpa using hb, by simp, fun j hj heq => ?_⟩
    have hsame : c.opcodeMap.toList[j]'(by simp; omega) = c.opcodeMap.toList[b.toNat]'(by simpa using hb) := by
      simpa using heq
    exact absurd ((opcodeMap_ok h).1.getElem_inj_iff.1 hsame) (by omega)
  simp [toByte, hnop, hillegal, hplace]

/-- `toByte` is the inverse of `fromByte` on every operation but illegal (30_encoding.md R63). -/
theorem toByte_eq_some_iff {c : Config} (h : c.wf = true) {op : Op} (hop : op ≠ .illegal) {b : Byte} :
    toByte c op = some b ↔ fromByte c b = op := by
  constructor
  · intro hbyte
    by_cases hnop : op = .nop
    · subst hnop
      exact fromByte_nop (nopByte_ge h hbyte) hbyte
    · obtain ⟨hb, hmap⟩ := toByte_some hnop hop hbyte
      rw [fromByte_map hb, hmap]
  · rintro rfl
    rcases fromByte_cases c b with ⟨hb, hmap⟩ | ⟨-, hnop, hfrom⟩ | ⟨-, hfrom⟩
    · rw [hmap, toByte_getElem h hb]
    · rw [hfrom, toByte_nop, hnop]
    · exact absurd hfrom hop

/-- Every operation of the map has a byte. -/
theorem toByte_isSome {c : Config} (h : c.wf = true) {op : Op} (hillegal : op ≠ .illegal) (hnop : op ≠ .nop) :
    (toByte c op).isSome = true := by
  simp only [toByte, hillegal, hnop, if_false, Option.isSome_map, List.findIdx?_isSome, List.any_eq_true]
  exact ⟨op, mem_opcodeMap h hnop hillegal, decide_eq_true rfl⟩

theorem encodeOp_illegal (c : Config) : encodeOp c .illegal = some c.illegalEncodeByte := rfl

theorem encodeOp_eq_toByte (c : Config) {op : Op} (hop : op ≠ .illegal) : encodeOp c op = toByte c op :=
  if_neg hop

/-- The byte that the encoder emits for an operation decodes to the operation. -/
theorem fromByte_of_encodeOp {c : Config} (h : c.wf = true) {op : Op} {b : Byte} (hb : encodeOp c op = some b) :
    fromByte c b = op := by
  by_cases hop : op = .illegal
  · subst hop
    obtain rfl := Option.some.inj hb
    exact fromByte_illegalEncodeByte h
  · exact (toByte_eq_some_iff h hop).1 (encodeOp_eq_toByte c hop ▸ hb)

/-- A well-formed instruction's operation has a byte: only nop can lack one (D2). -/
theorem encodeOp_isSome {c : Config} (h : c.wf = true) {i : Instr} (hi : i.wf c = true) :
    ∃ b, encodeOp c i.op = some b := by
  by_cases hillegal : i.op = .illegal
  · rw [hillegal]
    exact ⟨_, encodeOp_illegal c⟩
  · rw [encodeOp_eq_toByte c hillegal, ← Option.isSome_iff_exists]
    by_cases hnop : i.op = .nop
    · cases i with
      | nop => exact hi
      | _ => cases hnop
    · exact toByte_isSome h hillegal hnop

/-- Settles O3: `toByte_eq_some_iff`, with the two operations that have no byte of the map. -/
theorem toByteInvertsFromByte : Obligations.ToByteInvertsFromByte := by
  intro c h
  refine ⟨fun op b hb => ?_, fun op => toByte_isSome h, ?_, fun bs hbs => ?_, fromByte_illegalEncodeByte h, rfl⟩
  · have hop : op ≠ .illegal := by
      rintro rfl
      simp at hb
    exact (toByte_eq_some_iff h hop).1 hb
  · rw [toByte_nop, Option.isSome_iff_ne_none]
  · exact (Option.some.inj hbs).symm

/-! ### The two round trips -/

theorem encode_of_encodeOp {c : Config} {i : Instr} {ob : Byte} (h : encodeOp c i.op = some ob) :
    encode c i = some (ob :: operandBytes i) := by
  rw [encode, h]
  rfl

/-- What the encoder emits, with any bytes after it, decodes to the instruction. -/
theorem decode_encode {c : Config} (h : c.wf = true) {i : Instr} {bs : List Byte} (hbs : encode c i = some bs)
    (rest : List Byte) : decode c (bs ++ rest) = .ok (i, rest) := by
  obtain ⟨ob, hob, rfl⟩ := Option.map_eq_some_iff.1 hbs
  exact decode_of_operandBytes (fromByte_of_encodeOp h hob) rest

/-- Settles O5: a well-formed instruction has an opcode byte, and `decode_encode`. -/
theorem decodeOfEncodeIsTheInstruction : Obligations.DecodeOfEncodeIsTheInstruction := by
  intro c i rest h hi
  obtain ⟨ob, hob⟩ := encodeOp_isSome h hi
  have hbs := encode_of_encodeOp hob
  exact ⟨_, hbs, decode_encode h hbs rest⟩

theorem Instr.op_eq_illegal {i : Instr} (h : i.op = .illegal) : i = .illegal := by
  cases i with
  | illegal => rfl
  | _ => cases h

/-- Settles O6: the opcode byte consumed is the one `toByte` gives back, and the operand bytes are `decode_ok`'s. -/
theorem encodeOfDecodeIsTheBytes : Obligations.EncodeOfDecodeIsTheBytes := by
  intro c bs rest i h hdecode hi
  obtain ⟨ob, hop, rfl⟩ := decode_ok hdecode
  have hne : i.op ≠ .illegal := mt Instr.op_eq_illegal hi
  have hob : encodeOp c i.op = some ob := (encodeOp_eq_toByte c hne).trans ((toByte_eq_some_iff h hne).2 hop)
  exact ⟨ob :: operandBytes i, encode_of_encodeOp hob, rfl⟩

/-! ### Lengths -/

/-- The decoder consumes `length(op)` bytes, the opcode byte included. -/
theorem decode_length {c : Config} {ob : Byte} {bs rest : List Byte} {i : Instr}
    (h : decode c (ob :: bs) = .ok (i, rest)) :
    i.op = fromByte c ob ∧ bs.length + 1 = (fromByte c ob).length + rest.length := by
  obtain ⟨ob', hop, heq⟩ := decode_ok h
  obtain ⟨rfl, rfl⟩ := List.cons.inj heq
  have hlength := operandBytes_length i
  rw [hop, List.length_append]
  exact ⟨rfl, by omega⟩

/-- Where `length(op)` bytes are there, the decoder answers. -/
theorem decode_answers {c : Config} {ob : Byte} {bs : List Byte} (h : (fromByte c ob).length ≤ bs.length + 1) :
    ∃ i rest, decode c (ob :: bs) = .ok (i, rest) := by
  obtain ⟨i, rest, hoperands⟩ := decodeOperands_isSome h
  exact ⟨i, rest, by simp [decode, hoperands]⟩

/-- Settles O7: `decode_answers` and `decode_length`; the lengths are evaluated. -/
theorem opcodeByteFixesTheLength : Obligations.OpcodeByteFixesTheLength := by
  refine ⟨fun c ob bs => ⟨⟨decode_answers, ?_⟩, fun i rest => decode_length⟩, by decide, by decide, by decide,
    by decide⟩
  rintro ⟨i, rest, hdecode⟩
  have := (decode_length hdecode).2
  omega

/-- Settles O4, by evaluating the decoder. -/
theorem specWordsDecode : Obligations.SpecWordsDecode :=
  ⟨rfl, rfl, rfl, rfl, rfl, rfl, rfl, rfl⟩

end Sys2Proof

/-! PROOF. The assembler (30_encoding.md R83 to R91): the encoder of structured instructions, the line shapes, the
mnemonics and the canonical forms. -/

namespace Sys2Proof.Machine

/-! ### The encoder of structured instructions (R86, R87) -/

/-- `immHigh` and `immLow` of `u16` are the two bytes of R86's own formula. -/
theorem immHigh_u16 (v : Int) : immHigh (u16 v) = BitVec.ofInt 8 (v / 256) := by
  apply BitVec.eq_of_toNat_eq
  rw [immHigh_toNat, u16, BitVec.toNat_ofInt, BitVec.toNat_ofInt]
  omega

theorem immLow_u16 (v : Int) : immLow (u16 v) = BitVec.ofInt 8 v := by
  apply BitVec.eq_of_toNat_eq
  rw [immLow_toNat, u16, BitVec.toNat_ofInt, BitVec.toNat_ofInt]
  omega

theorem encodeOperand_eq_wire {o : Operand} (h : ∀ p, o ≠ .opcode p) : encodeOperand o = some (operandWire o) := by
  cases o with
  | reg i => rfl
  | int v => rw [encodeOperand, immHigh_u16, immLow_u16, operandWire]
  | opcode p => exact absurd rfl (h p)

theorem encodeOperands_eq_wire {os : List Operand} (h : ∀ o ∈ os, ∀ p, o ≠ .opcode p) :
    encodeOperands os = some (os.flatMap operandWire) := by
  induction os with
  | nil => rfl
  | cons o os ih =>
    obtain ⟨ho, hos⟩ := List.forall_mem_cons.1 h
    simp [encodeOperands, encodeOperand_eq_wire ho, ih hos]

/-- One opcode token among the operands refuses them all (R87). -/
theorem encodeOperands_opcode {os : List Operand} {p : Op} (h : .opcode p ∈ os) : encodeOperands os = none := by
  induction os with
  | nil => cases h
  | cons o os ih =>
    rcases List.mem_cons.1 h with rfl | h
    · rfl
    · simp [encodeOperands, ih h]

theorem encodeAsm_eq_some_iff {c : Config} {i : AsmInstr} {bs : List Byte} :
    encodeAsm c i = some bs ↔
      ∃ ob os, encodeOp c i.op = some ob ∧ encodeOperands i.operands = some os ∧ ob :: os = bs := by
  simp [encodeAsm, Option.bind_eq_some_iff]

theorem operandWire_length (o : Operand) : (operandWire o).length = operandWidth o := by
  cases o <;> rfl

/-- Settles O10: the opcode byte, then `encodeOperands_eq_wire`; nop has no byte where `NOP_BYTE` is none. -/
theorem encoderEmitsOpcodeThenOperands : Obligations.EncoderEmitsOpcodeThenOperands := by
  refine ⟨fun c op os ob hob hos => ?_, fun c os hnop => ?_⟩
  · refine ⟨_, encodeAsm_eq_some_iff.2 ⟨ob, _, hob, encodeOperands_eq_wire hos, rfl⟩, rfl, ?_⟩
    simp [List.length_flatMap, operandWire_length, Nat.add_comm]
  · have hop : encodeOp c .nop = none := hnop
    simp [encodeAsm, hop]

/-! ### Lines and programs (R84, R85, R89) -/

/-- The five shapes of a line's tokens, each with the operands it yields (R84). -/
def IsShape (ts : List Token) (op : Op) (os : List Operand) : Prop :=
  (∃ r v, ts = [.opcode op, .reg r, .int v] ∧ os = [.reg r, .int v]) ∨
  (∃ a b d, ts = [.opcode op, .reg a, .reg b, .reg d] ∧ os = [.reg a, .reg b, .reg d]) ∨
  (∃ a b, ts = [.opcode op, .reg a, .reg b] ∧ os = [.reg a, .reg b]) ∨
  (∃ r, ts = [.opcode op, .reg r] ∧ os = [.reg r]) ∨
  (ts = [.opcode op] ∧ os = [])

theorem matchShape_eq_some_iff {ts : List Token} {op : Op} {os : List Operand} :
    matchShape ts = some { op := op, operands := os } ↔ IsShape ts op os := by
  constructor
  · intro h
    unfold matchShape at h
    split at h <;> simp only [Option.some.injEq, AsmInstr.mk.injEq, reduceCtorEq] at h <;> obtain ⟨rfl, rfl⟩ := h
    · exact .inl ⟨_, _, rfl, rfl⟩
    · exact .inr (.inl ⟨_, _, _, rfl, rfl⟩)
    · exact .inr (.inr (.inl ⟨_, _, rfl, rfl⟩))
    · exact .inr (.inr (.inr (.inl ⟨_, rfl, rfl⟩)))
    · exact .inr (.inr (.inr (.inr ⟨rfl, rfl⟩)))
  · rintro (⟨r, v, rfl, rfl⟩ | ⟨a, b, d, rfl, rfl⟩ | ⟨a, b, rfl, rfl⟩ | ⟨r, rfl, rfl⟩ | ⟨rfl, rfl⟩) <;> rfl

/-- Settles O14: a line is its tokens, and `matchShape_eq_some_iff`. -/
theorem linesMatchExactlyFiveShapes : Obligations.LinesMatchExactlyFiveShapes := by
  intro text op os
  rw [parseLine, Option.bind_eq_some_iff]
  exact exists_congr fun ts => and_congr_right fun _ => matchShape_eq_some_iff

/-- No operand of a structured instruction is an opcode token. -/
def NoOpcodeOperand (i : AsmInstr) : Prop := ∀ p, .opcode p ∉ i.operands

theorem IsShape.noOpcodeOperand {ts : List Token} {op : Op} {os : List Operand} (h : IsShape ts op os) :
    NoOpcodeOperand { op := op, operands := os } := by
  rcases h with ⟨r, v, -, rfl⟩ | ⟨a, b, d, -, rfl⟩ | ⟨a, b, -, rfl⟩ | ⟨r, -, rfl⟩ | ⟨-, rfl⟩ <;> intro p <;> simp

theorem parseLine_noOpcodeOperand {text : List Char} {i : AsmInstr} (h : parseLine text = some i) :
    NoOpcodeOperand i := by
  obtain ⟨ts, -, hshape⟩ := Option.bind_eq_some_iff.1 h
  exact (matchShape_eq_some_iff.1 hshape).noOpcodeOperand

theorem matchFormOnes_noOpcodeOperand {ts : List Token} {prog : AsmProgram} (h : matchFormOnes ts = some prog) :
    ∀ i ∈ prog, NoOpcodeOperand i := by
  induction ts using matchFormOnes.induct generalizing prog with
  | case1 =>
    obtain rfl := Option.some.inj h
    simp
  | case2 op r v rest ih =>
    obtain ⟨p, hp, rfl⟩ := Option.map_eq_some_iff.1 h
    exact List.forall_mem_cons.2 ⟨by simp [NoOpcodeOperand], ih hp⟩
  | case3 ts hnil hform => simp [matchFormOnes] at h

/-- A parse item by item yields parsed items only. -/
theorem forall_mem_of_mapM {α β : Type} {f : α → Option β} {P : β → Prop} (hf : ∀ a b, f a = some b → P b)
    {as : List α} {bs : List β} (h : as.mapM f = some bs) : ∀ b ∈ bs, P b := by
  induction as generalizing bs with
  | nil =>
    obtain rfl := Option.some.inj h
    simp
  | cons a as ih =>
    simp only [List.mapM_cons, Option.bind_eq_bind, Option.bind_eq_some_iff, Option.pure_def, Option.some.injEq] at h
    obtain ⟨b, hb, bs, hbs, rfl⟩ := h
    exact List.forall_mem_cons.2 ⟨hf a b hb, ih hbs⟩

theorem parseProgram_noOpcodeOperand {mode : ParseMode} {text : List Char} {prog : AsmProgram}
    (h : parseProgram mode text = some prog) : ∀ i ∈ prog, NoOpcodeOperand i := by
  cases mode with
  | formOneOnly =>
    obtain ⟨ts, -, hts⟩ := Option.bind_eq_some_iff.1 h
    exact matchFormOnes_noOpcodeOperand hts
  | perLine => exact forall_mem_of_mapM (fun _ _ => parseLine_noOpcodeOperand) h

/-- Settles O11: the encoder's refusal, and the parser yields no opcode operand in a line or in either mode. -/
theorem opcodeOperandIsRefused : Obligations.OpcodeOperandIsRefused := by
  refine ⟨fun c i p hp => ⟨?_, ?_⟩, fun text i p h => parseLine_noOpcodeOperand h p,
    fun mode text prog i p h hi => parseProgram_noOpcodeOperand h i hi p⟩
  · simp [encodeAsm, encodeOperands_opcode hp]
  · have hall : i.operands.all Operand.wf = false := List.all_eq_false.2 ⟨_, hp, by simp [Operand.wf]⟩
    rw [AsmInstr.wf, hall, Bool.and_false]

/-! ### Program bytes (R88) -/

theorem programBytes_of_encodings {c : Config} {p : AsmProgram} {es : List (List Byte)}
    (h : p.map (encodeAsm c) = es.map some) : programBytes c p = some es.flatten := by
  induction p generalizing es with
  | nil =>
    obtain rfl : es = [] := by simpa using h.symm
    rfl
  | cons i p ih =>
    cases es with
    | nil => cases h
    | cons e es =>
      obtain ⟨hi, hp⟩ := List.cons.inj h
      simp [programBytes, hi, ih hp]

/-- Settles O12: the bytes of a program by its recursion, and of its first instruction by `encodeAsm_eq_some_iff`. -/
theorem programBytesAreConcatenated : Obligations.ProgramBytesAreConcatenated := by
  refine ⟨fun c p es => programBytes_of_encodings, fun c i p bs h => ?_⟩
  simp only [programBytes, Option.bind_eq_bind, Option.bind_eq_some_iff, Option.pure_def, Option.some.injEq] at h
  obtain ⟨e, he, more, -, rfl⟩ := h
  obtain ⟨ob, os, hob, -, rfl⟩ := encodeAsm_eq_some_iff.1 he
  exact hob.symm

/-! ### Mnemonics (R83) -/

theorem fromMnemonic_of_mem : ∀ m ∈ mnemonics, fromMnemonic m.1 = m.2 := by decide

theorem fromMnemonic_of_not_mem {name : List Char} (h : ∀ m ∈ mnemonics, m.1 ≠ name) :
    fromMnemonic name = .illegal := by
  have hnone : mnemonics.find? (fun m => m.1 == name) = none :=
    List.find?_eq_none.2 fun m hm => by simpa using h m hm
  rw [fromMnemonic, hnone]

/-- A field that begins with a letter is no register and no integer, so it is an opcode token where all of it are
letters. -/
theorem lexField_letters {name : List Char} (hne : name ≠ []) (h : name.all isLetter = true) :
    lexField name = some (.opcode (fromMnemonic name)) := by
  unfold lexField
  split
  case h_1 => exact absurd rfl hne
  case h_6 => rw [if_pos h]
  all_goals simp [isLetter] at h

theorem isLetter_iff (c : Char) : isLetter c = true ↔ ('a' ≤ c ∧ c ≤ 'z') ∨ ('A' ≤ c ∧ c ≤ 'Z') := by
  simp [isLetter]

/-- Settles O13: the column is the model's table of mnemonics, in order. -/
theorem mnemonicsResolveExactly : Obligations.MnemonicsResolveExactly := by
  refine ⟨?_, fun name hne h => lexField_letters hne (List.all_eq_true.2 fun c hc => (isLetter_iff c).2 (h c hc)),
    by decide, by decide, by decide⟩
  intro column hcolumn
  have htable : mnemonics = column.map fun p => (p.1.toList, p.2) := by
    rw [hcolumn]
    decide
  have hmem {p : String × Op} (hp : p ∈ column) : (p.1.toList, p.2) ∈ mnemonics :=
    htable ▸ List.mem_map_of_mem hp
  refine ⟨fun p hp => fromMnemonic_of_mem _ (hmem hp), fun name h => fromMnemonic_of_not_mem ?_⟩
  rw [htable]
  exact List.forall_mem_map.2 h

/-! ### Canonical forms (R91) -/

/-- The literal of a load's canonical form narrows back to the immediate (R82). -/
theorem u16_toInt (imm : Imm16) : u16 imm.toInt = imm := BitVec.ofInt_toInt

theorem canonicalForm_op (i : Instr) : (canonicalForm i).op = i.op := by
  cases i <;> rfl

theorem encodeOperands_canonicalForm (i : Instr) :
    encodeOperands (canonicalForm i).operands = some (operandBytes i) := by
  cases i with
  | load d imm => simp [canonicalForm, encodeOperands, encodeOperand, operandBytes, u16_toInt]
  | _ => rfl

/-- Settles O15: the canonical form keeps the operation and its operands are the instruction's operand bytes. -/
theorem canonicalFormsEncodeTheInstruction : Obligations.CanonicalFormsEncodeTheInstruction := by
  intro c i
  rw [encodeAsm, encode, canonicalForm_op, encodeOperands_canonicalForm]
  cases encodeOp c i.op <;> rfl

end Sys2Proof.Machine

/-! PROOF. Executing encoded bytes (30_encoding.md R67, R68, R93). -/

namespace Sys2Proof.Machine

/-- Settles O17: what stands at pc is what the encoder emits, so by `decode_encode` it is what the fetch reads. -/
theorem encodedBytesAtPcAreExecuted : Obligations.EncodedBytesAtPcAreExecuted := by
  intro s i bs hwf hfault hbs hread
  have hdecode : decode s.cfg bs = .ok (i, []) := by simpa using decode_encode hwf hbs []
  exact step_of_fetch hfault (State.fetch_of_bytes hdecode hread)

/-! ### Illegal bytes -/

/-- An illegal byte at pc is fetched alone: the illegal operation has no operand bytes (30_encoding.md R64). -/
theorem State.fetch_illegal {s : State} {ob : Byte} (hob : s.buffer.read s.pc.toNat = some ob)
    (hillegal : fromByte s.cfg ob = .illegal) : s.fetch = .ok .illegal := by
  refine State.fetch_of_decode (rest := s.buffer.window (s.pc.toNat + 1) 3) ?_
  rw [Memory.window_cons 3 hob]
  exact decode_of_operandBytes (i := .illegal) hillegal _

/-- A byte of the opcode map never decodes to the illegal instruction, whatever its operand bytes. -/
theorem decode_ne_illegal {c : Config} (h : c.wf = true) {ob : Byte} (hob : ob.toNat < 18) {bs rest : List Byte}
    {i : Instr} (hdecode : decode c (ob :: bs) = .ok (i, rest)) : i ≠ .illegal := by
  rintro rfl
  have hop : Op.illegal = fromByte c ob := (decode_length hdecode).1
  rw [fromByte_map hob] at hop
  exact (opcodeMap_getElem_ne h hob).2 hop.symm

/-- Settles O8: the illegal instruction's own step, the bytes of the map, and `exec_badRegister`. -/
theorem illegalBytesHaltWithoutFault : Obligations.IllegalBytesHaltWithoutFault := by
  refine ⟨fun s ob hfault hob hge hnop => ?_, fun c ob bs rest i h hle => decode_ne_illegal h (by omega),
    fun s i rest hfault hdecode hbad => ?_⟩
  · have hillegal := fromByte_illegal hge hnop
    exact ⟨hillegal, step_of_fetch hfault (State.fetch_illegal hob hillegal)⟩
  · exact ⟨_, (step_of_fetch hfault (State.fetch_of_decode hdecode)).trans (exec_badRegister s hbad), rfl⟩

/-! ### Load's immediate -/

/-- The value that load writes is `byte2 * 256 + byte3`: zero-extended, so never negative (30_encoding.md R67). -/
theorem immOfBytes_setWidth_toInt (hi lo : Byte) :
    ((immOfBytes hi lo).setWidth 32).toInt = hi.toNat * 256 + lo.toNat := by
  have himm := immOfBytes_toNat hi lo
  have hlt := (immOfBytes hi lo).isLt
  rw [BitVec.toInt_eq_toNat_of_lt (by rw [BitVec.toNat_setWidth]; omega), BitVec.toNat_setWidth]
  omega

theorem exec_load_regByte (d : RegId) (imm : Imm16) (s : State) :
    exec (.load (regByte d) imm) s =
      .next (((s.writeReg d (imm.setWidth 32)).advance 4).withOutcome .continues) := by
  simp [exec, execLoad]

/-- Only load has an immediate: the operand bytes of every other instruction are its register fields. -/
theorem operandBytes_eq_regFields {i : Instr} (h : i.op ≠ .load) : operandBytes i = i.regFields := by
  cases i with
  | load d imm => exact absurd rfl h
  | _ => rfl

/-- Settles O9: the load's step and its value, the encoding of `#-1`, and the operand bytes of the others. -/
theorem loadImmediateIsUnsignedBigEndian : Obligations.LoadImmediateIsUnsignedBigEndian := by
  refine ⟨fun s ob hi lo d hfault hop hwindow => ?_, fun c ob d hob => ?_, fun i => operandBytes_eq_regFields⟩
  · have hdecode : decode s.cfg (s.buffer.window s.pc.toNat 4) = .ok (.load (regByte d) (immOfBytes hi lo), []) := by
      have hbytes := decode_of_operandBytes (i := .load (regByte d) (immOfBytes hi lo)) hop []
      simpa [hwindow, operandBytes, immHigh_immOfBytes, immLow_immOfBytes] using hbytes
    have hvalue := immOfBytes_setWidth_toInt hi lo
    have hhi := hi.isLt
    have hlo := lo.isLt
    exact ⟨_, hvalue, by omega, by omega,
      (step_of_fetch hfault (State.fetch_of_decode hdecode)).trans (exec_load_regByte d _ s)⟩
  · have hoperands : encodeOperands [.reg d, .int (-1)] = some [d, 0xFF, 0xFF] := rfl
    exact encodeAsm_eq_some_iff.2 ⟨ob, _, hob, hoperands, rfl⟩

end Sys2Proof.Machine

/-! PROOF. The step (40_step.md R100 to R109): the decoded instruction, the end of the buffer, truncation, the outcomes
that end a run, and `run` as a chain of steps. -/

namespace Sys2Proof.Machine

/-- Settles O16: the fetch is the decoder's answer on the bytes at pc. -/
theorem stepRunsTheDecodedInstruction : Obligations.StepRunsTheDecodedInstruction := by
  intro s i rest hfault hdecode
  exact step_of_fetch hfault (State.fetch_of_decode hdecode)

/-- Settles O20: `step_next`. -/
theorem everyStepAnswersANextState : Obligations.EveryStepAnswersANextState :=
  step_next

/-! ### The outcome of a completed instruction (R106) -/

theorem Instr.op_eq_halt {i : Instr} (h : i.op = .halt) : i = .halt := by
  cases i with
  | halt => rfl
  | _ => cases h

/-- Everything that a completed instruction can answer. -/
theorem exec_completed_outcome {i : Instr} {s t : State} (h : exec i s = .next t)
    (hc : ∀ f, t.outcome ≠ .faulted f) :
    (i = .halt ∧ t.outcome = .halted .haltInstr) ∨ (i = .illegal ∧ t.outcome = .halted .illegalInstr) ∨
      (i ≠ .halt ∧ i ≠ .illegal ∧ t.outcome = .continues) := by
  by_cases hhalt : i = .halt
  · subst hhalt
    cases h
    exact .inl ⟨rfl, rfl⟩
  · by_cases hillegal : i = .illegal
    · subst hillegal
      cases h
      exact .inr (.inl ⟨rfl, rfl⟩)
    · exact .inr (.inr ⟨hhalt, hillegal,
        exec_continues h hc (mt Instr.op_eq_halt hhalt) (mt Instr.op_eq_illegal hillegal)⟩)

/-- Settles O23: the three cases of `exec_completed_outcome`. -/
theorem onlyHaltAndIllegalEndTheRun : Obligations.OnlyHaltAndIllegalEndTheRun := by
  intro i s t h hc
  rcases exec_completed_outcome h hc with ⟨rfl, ho⟩ | ⟨rfl, ho⟩ | ⟨hhalt, hillegal, ho⟩
  · exact ⟨fun _ => ho, nofun, fun hne => absurd rfl hne⟩
  · exact ⟨nofun, fun _ => ho, fun _ hne => absurd rfl hne⟩
  · exact ⟨fun he => absurd he hhalt, fun he => absurd he hillegal, fun _ _ => ho⟩

/-! ### The end of the buffer (R100) -/

theorem step_endOfBuffer {s : State} (hfault : s.fault = none) (hend : s.buffer.size ≤ s.pc.toNat) :
    step s = .next { s with outcome := .halted .endOfBuffer } :=
  step_of_error hfault (State.fetch_noOpcode.2 hend)

/-- No instruction halts with `EndOfBuffer`. -/
theorem Completed.outcome_ne_endOfBuffer {i : Instr} {s t : State} (hcompleted : Completed i s t)
    (h : exec i s = .next t) : t.outcome ≠ .halted .endOfBuffer := by
  rcases exec_completed_outcome h hcompleted.outcome with ⟨-, ho⟩ | ⟨-, ho⟩ | ⟨-, -, ho⟩ <;> simp [ho]

/-- A step that finds an opcode byte at pc does not halt with `EndOfBuffer`. -/
theorem step_outcome_ne_endOfBuffer {s t : State} (hfault : s.fault = none) (hpc : s.pc.toNat < s.buffer.size)
    (h : step s = .next t) : t.outcome ≠ .halted .endOfBuffer := by
  rcases step_cases h with ⟨r, hr, -⟩ | ⟨-, hfetch, -⟩ | ⟨-, -, f, rfl⟩ | ⟨-, i, -, hexec, hcompleted⟩
  · simp [hfault] at hr
  · exact absurd (State.fetch_noOpcode.1 hfetch) (Nat.not_le.2 hpc)
  · exact nofun
  · exact hcompleted.outcome_ne_endOfBuffer hexec

/-- Settles O18: an accepted append keeps the fault record and pc, so the length it leaves decides the next step. -/
theorem endOfBufferHaltsUntilBytesAreAppended : Obligations.EndOfBufferHaltsUntilBytesAreAppended := by
  intro s t bs hfault hend
  refine ⟨step_endOfBuffer hfault hend, fun happend => ?_⟩
  obtain ⟨hpc, hfault⟩ : t.pc = s.pc ∧ t.fault = none := by
    obtain rfl := appendBytes_accepted happend
    exact ⟨rfl, hfault⟩
  rw [← hpc]
  refine ⟨step_endOfBuffer hfault, fun hlt => ?_⟩
  obtain ⟨u, hu⟩ := step_next t
  exact ⟨u, hu, step_outcome_ne_endOfBuffer hfault hlt hu⟩

/-! ### Truncation (R102) -/

/-- Where fewer than `length(op)` bytes are there, the decoder finds the instruction truncated. -/
theorem decode_truncated {c : Config} {ob : Byte} {bs : List Byte} (h : bs.length + 1 < (fromByte c ob).length) :
    decode c (ob :: bs) = .error .truncated := by
  cases hoperands : decodeOperands (fromByte c ob) bs with
  | none => simp [decode, hoperands]
  | some r =>
    have hdecode : decode c (ob :: bs) = .ok (r.1, r.2) := by simp [decode, hoperands]
    have := (decode_length hdecode).2
    omega

section
variable {s : State} {ob : Byte} (hob : s.buffer.read s.pc.toNat = some ob)
include hob

/-- The bytes that the fetch decodes: the opcode byte and at most 3 bytes after it. -/
theorem State.window_at_pc :
    s.buffer.window s.pc.toNat 4 = ob :: s.buffer.window (s.pc.toNat + 1) 3 ∧
      (s.buffer.window (s.pc.toNat + 1) 3).length + 1 = min 4 (s.buffer.size - s.pc.toNat) := by
  have := Memory.read_lt hob
  refine ⟨Memory.window_cons 3 hob, ?_⟩
  rw [Memory.window_length]
  omega

/-- Operand bytes that run past the end of the buffer make the fetch fail. -/
theorem State.fetch_truncated (hpast : s.buffer.size < s.pc.toNat + (fromByte s.cfg ob).length) :
    s.fetch = .error .truncated := by
  obtain ⟨hwindow, hlength⟩ := State.window_at_pc hob
  have hdecode := decode_truncated (c := s.cfg) (ob := ob) (bs := s.buffer.window (s.pc.toNat + 1) 3) (by omega)
  rw [State.fetch, hwindow, hdecode]

/-- An instruction that lies in the buffer as a whole is fetched, and its operand bytes are those after the opcode
byte. -/
theorem State.fetch_of_fits (hfits : s.pc.toNat + (fromByte s.cfg ob).length ≤ s.buffer.size) :
    ∃ i, s.fetch = .ok i ∧ i.op = fromByte s.cfg ob ∧
      ∀ k, k + 1 < (fromByte s.cfg ob).length → (operandBytes i)[k]? = s.buffer.read (s.pc.toNat + 1 + k) := by
  obtain ⟨hwindow, hlength⟩ := State.window_at_pc hob
  have hle := Op.length_le (fromByte s.cfg ob)
  obtain ⟨i, rest, hdecode⟩ :=
    decode_answers (c := s.cfg) (ob := ob) (bs := s.buffer.window (s.pc.toNat + 1) 3) (by omega)
  obtain ⟨ob', hop, hbytes⟩ := decode_ok hdecode
  obtain ⟨rfl, hoperands⟩ := List.cons.inj hbytes
  refine ⟨i, State.fetch_of_decode (hwindow ▸ hdecode), hop.symm, fun k hk => ?_⟩
  have hlast : k < (operandBytes i).length := by
    have := operandBytes_length i
    rw [hop] at hk
    omega
  rw [← Memory.window_getElem? _ _ 3 k (by omega), hoperands, List.getElem?_append_left hlast]

end

/-- Settles O19: the fetch fails exactly past the end, and by `exec_not_truncated` no fetched instruction raises
`Truncated`. -/
theorem truncatedExactlyPastTheEnd : Obligations.TruncatedExactlyPastTheEnd := by
  intro s ob hfault hob
  have hwhole (hfits : s.pc.toNat + (fromByte s.cfg ob).length ≤ s.buffer.size) (t : State)
      (h : step s = .next t) : t.outcome ≠ .faulted .truncated := by
    obtain ⟨i, hfetch, -, -⟩ := State.fetch_of_fits hob hfits
    rw [step_of_fetch hfault hfetch] at h
    exact exec_not_truncated h
  refine ⟨fun hpast => ?_, fun hfits => ?_, hwhole, fun hone h => ?_⟩
  · rw [step_of_error hfault (State.fetch_truncated hob hpast), ← State.raise_eq_faultEntry _ hob]
    rfl
  · obtain ⟨i, hfetch, hop, hoperands⟩ := State.fetch_of_fits hob hfits
    exact ⟨i, hop, step_of_fetch hfault hfetch, hoperands⟩
  · have := Memory.read_lt hob
    exact hwhole (by omega) _ h rfl

/-! ### `runOnce` and `run` (R107) -/

theorem runOnce_eq_some_iff {s t : State} {o : StepOutcome} :
    runOnce s = some (t, o) ↔ step s = .next t ∧ o = t.outcome := by
  obtain ⟨u, hu⟩ := step_next s
  simp only [runOnce, hu, Option.some.injEq, Prod.mk.injEq, Host.Outcome.next.injEq]
  constructor
  · rintro ⟨rfl, rfl⟩
    exact ⟨rfl, rfl⟩
  · rintro ⟨rfl, rfl⟩
    exact ⟨rfl, rfl⟩

theorem StepOutcome.stops_iff (o : StepOutcome) : o.stops = true ↔ o ≠ .continues := by
  simp [StepOutcome.stops]

theorem run_succ_of_stop {s t : State} (fuel : Nat) (h : step s = .next t) (hstop : t.outcome ≠ .continues) :
    run (fuel + 1) s = some (t, t.outcome) := by
  simp [run, runOnce_eq_some_iff.2 ⟨h, rfl⟩, (StepOutcome.stops_iff _).2 hstop]

theorem run_succ_of_continues {s t : State} (fuel : Nat) (h : step s = .next t) (hgo : t.outcome = .continues) :
    run (fuel + 1) s = run fuel t := by
  simp [run, runOnce_eq_some_iff.2 ⟨h, rfl⟩, hgo, StepOutcome.stops]

/-- `k` steps through the states of `c`, each with the outcome `Continue`. -/
def ContinuesFor (c : Nat → State) (k : Nat) : Prop :=
  ∀ j, j < k → step (c j) = .next (c (j + 1)) ∧ (c (j + 1)).outcome = .continues

theorem continuesFor_succ {c : Nat → State} {k : Nat} :
    ContinuesFor c (k + 1) ↔
      (step (c 0) = .next (c 1) ∧ (c 1).outcome = .continues) ∧ ContinuesFor (fun j => c (j + 1)) k :=
  Nat.forall_lt_succ_left

/-- Fuel for the steps that continue, and no more, is no answer. -/
theorem run_eq_none_of_continuesFor {c : Nat → State} {k : Nat} (hchain : ContinuesFor c k) : run k (c 0) = none := by
  induction k generalizing c with
  | zero => rfl
  | succ k ih =>
    obtain ⟨⟨hstep, hgo⟩, htail⟩ := continuesFor_succ.1 hchain
    rw [run_succ_of_continues k hstep hgo]
    exact ih htail

/-- A chain of steps that ends in a stop is what `run` answers, given fuel for all of it. -/
theorem run_of_continuesFor {c : Nat → State} {k fuel : Nat} {t : State} (hfuel : k < fuel)
    (hchain : ContinuesFor c k) (hlast : step (c k) = .next t) (hstop : t.outcome ≠ .continues) :
    run fuel (c 0) = some (t, t.outcome) := by
  induction k generalizing c fuel with
  | zero =>
    obtain ⟨fuel, rfl⟩ := Nat.exists_eq_succ_of_ne_zero (Nat.ne_of_gt hfuel)
    exact run_succ_of_stop fuel hlast hstop
  | succ k ih =>
    obtain ⟨fuel, rfl⟩ := Nat.exists_eq_succ_of_ne_zero (Nat.ne_zero_of_lt hfuel)
    obtain ⟨⟨hstep, hgo⟩, htail⟩ := continuesFor_succ.1 hchain
    rw [run_succ_of_continues fuel hstep hgo]
    exact ih (Nat.lt_of_succ_lt_succ hfuel) htail hlast

/-- The states that a machine goes through, a step at a time. -/
def stateAfter (s : State) : Nat → State
  | 0 => s
  | k + 1 => stateAfter (HostCall.apply s .runOnce) k

/-- What an answer of `run` says: the steps continue up to one that stops, whose state and outcome are the answer. -/
theorem continuesFor_of_run {fuel : Nat} {s t : State} {o : StepOutcome} (h : run fuel s = some (t, o)) :
    o ≠ .continues ∧ t.outcome = o ∧
      ∃ k, k < fuel ∧ ContinuesFor (stateAfter s) k ∧ step (stateAfter s k) = .next t := by
  induction fuel generalizing s with
  | zero => cases h
  | succ fuel ih =>
    have hstep := step_eq_apply_runOnce s
    by_cases hgo : (HostCall.apply s .runOnce).outcome = .continues
    · rw [run_succ_of_continues fuel hstep hgo] at h
      obtain ⟨hstop, ho, k, hk, hchain, hlast⟩ := ih h
      exact ⟨hstop, ho, k + 1, Nat.succ_lt_succ hk, continuesFor_succ.2 ⟨⟨hstep, hgo⟩, hchain⟩, hlast⟩
    · rw [run_succ_of_stop fuel hstep hgo] at h
      cases h
      exact ⟨hgo, rfl, 0, Nat.succ_pos fuel, nofun, hstep⟩

/-- Settles O26: an answer of `run` is a chain that ends in a stop, and such a chain fixes what any fuel answers. -/
theorem runReturnsTheFirstStop : Obligations.RunReturnsTheFirstStop := by
  refine ⟨fun s t o => runOnce_eq_some_iff, StepOutcome.stops_iff, fun fuel s t o h => ?_,
    fun fuel k c t => run_of_continuesFor⟩
  obtain ⟨hstop, rfl, k, hk, hchain, hlast⟩ := continuesFor_of_run h
  have hanswer {n : Nat} (hn : k < n) : run n s = some (t, t.outcome) := run_of_continuesFor hn hchain hlast hstop
  exact ⟨hstop, rfl, fun more => hanswer (Nat.lt_add_right more hk), k, hk, run_eq_none_of_continuesFor hchain,
    hanswer (Nat.lt_succ_self k), stateAfter s, rfl, hchain, hlast⟩

end Sys2Proof.Machine

/-! PROOF. Load (41_load.md R120). -/

namespace Sys2Proof.Machine

/-- Settles O30: the word written is the immediate zero-extended to 32 bits, by load's equation `exec_load_regByte`. -/
theorem loadWritesTheZeroExtendedImmediate : Obligations.LoadWritesTheZeroExtendedImmediate := by
  intro s d imm
  exact ⟨imm.setWidth 32, setWidth_toInt imm, exec_load_regByte d imm s⟩

end Sys2Proof.Machine

/-! PROOF. Arithmetic (42_arithmetic.md): what add, sub, mul and div do where both sources can be read. -/

namespace Sys2Proof.Machine

/-! ### The division law (R135) on integers -/

theorem abs_tmod_lt_abs (n : Int) {m : Int} (hm : m ≠ 0) : |n.tmod m| < |m| := by
  have hlt := Nat.mod_lt n.natAbs (Int.natAbs_pos.2 hm)
  rw [Int.abs_eq_natAbs, Int.abs_eq_natAbs, Int.natAbs_tmod]
  exact Int.ofNat_lt.2 hlt

/-- A remainder that is not 0 has the sign of the dividend. -/
theorem tmod_eq_zero_or_pos_iff (n m : Int) : n.tmod m = 0 ∨ (0 < n.tmod m ↔ 0 < n) := by
  by_cases hdvd : m ∣ n
  · exact .inl (Int.tmod_eq_zero_of_dvd hdvd)
  · have hsign : (n.tmod m).sign = n.sign := by rw [Int.sign_tmod, if_neg hdvd]
    exact .inr (by rw [← Int.sign_eq_one_iff_pos, hsign, Int.sign_eq_one_iff_pos])

/-! ### The divider's words -/

theorem u32_toInt (w : Word) : u32 w.toInt = w := BitVec.ofInt_toInt

/-- Only -2^31 / -1 has a quotient that 32 bits do not hold: every other one is the reading of a word, `BitVec.sdiv`. -/
theorem u32_tdiv_toInt {x y : Word} (h : ¬ (s32 x = -2 ^ 31 ∧ s32 y = -1)) :
    (u32 ((s32 x).tdiv (s32 y))).toInt = (s32 x).tdiv (s32 y) := by
  have hwords : x ≠ BitVec.intMin 32 ∨ y ≠ -1#32 := by
    by_contra hc
    obtain ⟨rfl, rfl⟩ : x = BitVec.intMin 32 ∧ y = -1#32 := by simpa [not_or] using hc
    exact h (by decide)
  rw [← BitVec.toInt_sdiv_of_ne_or_ne x y hwords, u32_toInt]

/-- A remainder is the reading of a word, `BitVec.srem`, so stored modulo 2^32 it moves by 2^32 exactly where it is
negative. -/
theorem u32_tmod_toNat (x y : Word) :
    ((u32 ((s32 x).tmod (s32 y))).toNat : Int) =
      if (s32 x).tmod (s32 y) < 0 then (s32 x).tmod (s32 y) + 2 ^ 32 else (s32 x).tmod (s32 y) := by
  have hbounds : -2147483648 ≤ (x.srem y).toInt ∧ (x.srem y).toInt ≤ 2147483647 := s32_bounds _
  rw [u32_toNat, ← BitVec.toInt_srem]
  split <;> omega

/-! ### The instructions on readable sources -/

/-- The first part of an instruction that passes hands its value to the rest. -/
theorem State.settle_bind_ok {α : Type} {s : State} {m : Except Fault α} {k : α → Except Fault State}
    {o : StepOutcome} {v : α} (h : m = .ok v) : s.settle (m >>= k) o = s.settle (k v) o := by
  rw [h, bind_ok_right]

section
variable {s : State} {a b : RegId} (d : RegId) (ha : s.RegReadable a) (hb : s.RegReadable b)
include ha hb

theorem State.alu_ok (f : Word → Word → Word) :
    s.alu (regByte a) (regByte b) (regByte d) f =
      .next (((s.writeReg d (f (s.reg a).value (s.reg b).value)).advance 4).withOutcome .continues) :=
  State.settle_bind_ok (s.operandsRRR_ok d ha hb)

theorem exec_div_ok {q r : Word} (h : aluDiv (s.reg a).value (s.reg b).value = .ok (q, r)) :
    exec (.div (regByte a) (regByte b) (regByte d)) s =
      .next ((((s.writeReg d q).writeRem r).advance 4).withOutcome .continues) :=
  (State.settle_bind_ok (s.operandsRRR_ok d ha hb)).trans (State.settle_bind_ok h)

theorem exec_div_error {f : Fault} (h : aluDiv (s.reg a).value (s.reg b).value = .error f) :
    exec (.div (regByte a) (regByte b) (regByte d)) s = .next (s.raise f) :=
  (State.settle_bind_ok (s.operandsRRR_ok d ha hb)).trans (State.settle_bind_error h)

end

/-! ### The obligations -/

/-- Settles O31: add, sub and mul are `State.alu_ok` at three functions, each `wrap32` of its exact result, and
`wrap32_congr` gives the congruence. -/
theorem addSubMulWriteTheWrappedResult : Obligations.AddSubMulWriteTheWrappedResult := by
  intro s a b d ha hb p hp
  refine ⟨wrap32 p.2, wrap32_congr p.2, ?_⟩
  simp only [List.mem_cons, List.not_mem_nil, or_false] at hp
  rcases hp with rfl | rfl | rfl
  · exact State.alu_ok d ha hb aluAdd
  · exact State.alu_ok d ha hb aluSub
  · exact State.alu_ok d ha hb aluMul

/-- Settles O32: the divider answers the truncated quotient and its remainder (`aluDiv_ok`), which meet the law of R135
and fit their words. -/
theorem divWritesQuotientAndRemainder : Obligations.DivWritesQuotientAndRemainder := by
  intro s a b d ha hb hzero hoverflow
  exact ⟨_, _, _, _, (Int.tdiv_mul_add_tmod _ _).symm, abs_tmod_lt_abs _ hzero, tmod_eq_zero_or_pos_iff _ _,
    u32_tdiv_toInt hoverflow, u32_tmod_toNat _ _, exec_div_ok d ha hb (aluDiv_ok hzero hoverflow)⟩

/-- Settles O33: each clause is one of the divider's two faults, taken with the opcode byte that stands at pc. -/
theorem divFaultsOnZeroAndOverflow : Obligations.DivFaultsOnZeroAndOverflow := by
  intro s a b d ob hob ha hb
  refine ⟨fun hzero => ?_, fun hmin hneg => ?_⟩
  · rw [exec_div_error d ha hb (aluDiv_zero hzero), State.raise_eq_faultEntry _ hob]
  · rw [exec_div_error d ha hb (aluDiv_overflow hmin hneg), State.raise_eq_faultEntry _ hob]

end Sys2Proof.Machine

/-! PROOF. The unconditional jump (43_jumps.md R150). -/

namespace Sys2Proof.Machine

theorem exec_jmp_ok {s : State} {r : RegId} (hr : s.RegReadable r) :
    exec (.jmp (regByte r)) s = .next ((s.setPc (s.reg r).value).withOutcome .continues) :=
  State.settle_bind_ok (s.operandR_ok hr)

/-- Settles O34: pc takes the register's pattern (`exec_jmp_ok`), which is its value modulo 2^32 (`toNat_eq_emod`). -/
theorem jmpGoesToTheRegister : Obligations.JmpGoesToTheRegister := by
  intro s r hr
  exact ⟨(s.reg r).value, toNat_eq_emod _, exec_jmp_ok hr⟩

end Sys2Proof.Machine

/-! PROOF. Comparisons and conditional jumps (44_compare_branch.md) where their operands can be read. -/

namespace Sys2Proof.Machine

theorem State.compare_ok {s : State} {a b : RegId} (ha : s.RegReadable a) (hb : s.RegReadable b)
    (rel : Word → Word → Bool) :
    s.compare (regByte a) (regByte b) rel =
      .next (((s.writeFlag (rel (s.reg a).value (s.reg b).value)).advance 3).withOutcome .continues) :=
  State.settle_bind_ok (s.operandsRR_ok ha hb)

theorem State.jumpIf_ok {s : State} {r : RegId} (hr : s.RegReadable r) (hf : s.FlagReadable) (polarity : Bool) :
    s.jumpIf (regByte r) polarity = .next
      { s with pc := if s.flag.value = polarity then (s.reg r).value else s.pc + 2, outcome := .continues } := by
  refine (State.settle_bind_ok (s.operandRFlag_ok hr hf)).trans ?_
  change s.settle (.ok (if s.flag.value = polarity then s.setPc (s.reg r).value else s.advance 2)) .continues = _
  split <;> rfl

/-! ### The obligations -/

/-- Settles O36: the six comparisons are `State.compare_ok` at six relations, each of which decides its order on the
registers read as signed integers. -/
theorem comparisonsWriteTheSignedRelation : Obligations.ComparisonsWriteTheSignedRelation := by
  intro s a b ha hb p hp
  simp only [List.mem_cons, List.not_mem_nil, or_false] at hp
  rcases hp with rfl | rfl | rfl | rfl | rfl | rfl
  · exact State.compare_ok ha hb relEq
  · exact State.compare_ok ha hb relNeq
  · exact State.compare_ok ha hb relGt
  · exact State.compare_ok ha hb relLt
  · exact State.compare_ok ha hb relGtq
  · exact State.compare_ok ha hb relLtq

/-- Settles O37: jeq and jneq are `State.jumpIf_ok` at the two polarities. -/
theorem conditionalJumpsFollowTheFlag : Obligations.ConditionalJumpsFollowTheFlag := by
  intro s r hr hf
  exact ⟨State.jumpIf_ok hr hf true, State.jumpIf_ok hr hf false⟩

end Sys2Proof.Machine

/-! PROOF. Halt, illegal, no-op and heap allocation (45_control_heap.md) where the operand can be read. -/

namespace Sys2Proof.Machine

section
variable {s : State} {r : RegId} (hr : s.RegReadable r)
include hr

theorem exec_aloc_ok {n : Nat} (h : s.allocCount (s.reg r).value = .ok n) :
    exec (.aloc (regByte r)) s = .next (((s.growHeap n).advance 2).withOutcome .continues) :=
  (State.settle_bind_ok (s.operandR_ok hr)).trans (State.settle_bind_ok h)

theorem exec_aloc_error {f : Fault} (h : s.allocCount (s.reg r).value = .error f) :
    exec (.aloc (regByte r)) s = .next (s.raise f) :=
  (State.settle_bind_ok (s.operandR_ok hr)).trans (State.settle_bind_error h)

end

/-! ### The obligations -/

/-- Settles O39: the count is allowed (`State.allocCount_fits`), and the new heap is the old one under `growZero`, whose
laws say what each byte reads. -/
theorem alocGrowsTheHeapByZeroBytes : Obligations.AlocGrowsTheHeapByZeroBytes := by
  intro s r hwf hr hcount hmax
  refine ⟨s.heap.growZero (s.reg r).value.toInt.toNat, ?_, fun a ha => s.heap.growZero_read_old _ ha,
    fun a hold hnew => s.heap.growZero_read_new _ hwf hold hnew, exec_aloc_ok hr (State.allocCount_fits hcount hmax)⟩
  rw [Memory.growZero_size, Int.natCast_add, Int.toNat_of_nonneg hcount]

/-- Settles O40: each clause is one of the two faults of `State.allocCount`, taken with the opcode byte that stands at
pc. -/
theorem alocFaultsOnNegativeAndExhausted : Obligations.AlocFaultsOnNegativeAndExhausted := by
  intro s r ob hob hr
  refine ⟨fun hneg => ?_, fun hcount hpast => ?_⟩
  · rw [exec_aloc_error hr (State.allocCount_negative hneg), State.raise_eq_faultEntry _ hob]
  · rw [exec_aloc_error hr (State.allocCount_exhausted hcount hpast), State.raise_eq_faultEntry _ hob]

/-- Settles O38: each of the three is a settled `advance 1` with its own outcome, with no check that could fail. -/
theorem haltIllegalAndNopAdvanceByOne : Obligations.HaltIllegalAndNopAdvanceByOne :=
  fun _ => ⟨rfl, rfl, rfl⟩

end Sys2Proof.Machine

/-! PROOF. Faults, halts and the host's calls (60_exceptions.md): the invariant through any calls, the one part of a
recorded fault that a host call changes, and what a step that faults or halts leaves. -/

namespace Sys2Proof.Machine

/-! ### The invariant through the host's calls (R230) -/

theorem resetCell_written {α : Type} {p : ResetPolicy} (hp : p = .zero) (zero : α) :
    (resetCell p zero).written = true := by
  simp [resetCell, hp]

theorem State.resetWith_reg (c : Config) (i : RegId) :
    (State.resetWith c).reg i = resetCell c.resetPolicy 0#32 := by
  simp [State.reg, State.resetWith]

/-- The reset state of a configuration that 00_scope.md R8 allows meets the invariant: both stores are empty, and under
the `Zero` policy every cell is written (70_reset_and_hazards.md R240). -/
theorem State.resetWith_inv {c : Config} (h : c.wf = true) : (State.resetWith c).Inv where
  cfgWf := h
  bufferWf := Memory.empty_wf
  bufferBound := Nat.zero_le _
  heapWf := Memory.empty_wf
  heapBound := Nat.zero_le _
  heapZero := fun _ _ hread => Memory.read_eq_zero_of_no_cells rfl hread
  faultAtPc := nofun
  regsWritten := fun hp i => by rw [State.resetWith_reg]; exact resetCell_written hp _
  flagWritten := fun hp => resetCell_written hp _
  remWritten := fun hp => resetCell_written hp _

/-- An accepted append keeps the invariant: the byte that a fault record names is an old byte, which stays
(20_memory.md R50). -/
theorem State.Inv.append {s : State} (h : s.Inv) {bs : List Byte}
    (hfits : s.buffer.size + bs.length ≤ s.cfg.maxProgramBytes) :
    State.Inv { s with buffer := s.buffer.append bs } :=
  { h with
    bufferWf := s.buffer.append_wf bs h.bufferWf
    bufferBound := by rw [Memory.append_size]; exact hfits
    faultAtPc := fun r hr => by
      obtain ⟨hpc, hread⟩ := h.faultAtPc r hr
      exact ⟨hpc, (s.buffer.append_read_old bs (Memory.read_lt hread)).trans hread⟩ }

/-- Settles O52, by the induction over host calls: reset makes a state that meets the invariant, and an accepted append
and a step each keep it. -/
theorem hostCallsKeepTheInvariant : Obligations.HostCallsKeepTheInvariant := by
  intro s calls hs
  exact hostCalls_keeps hs (fun _ u hu => State.resetWith_inv hu.cfgWf) (fun u bs hu hfits => hu.append hfits)
    stepKeepsTheInvariant

/-! ### A recorded fault (R213) -/

/-- While a fault is recorded, host calls other than reset change the buffer and the outcome field at most. -/
theorem hostCalls_of_fault {s : State} {r : FaultRecord} (hr : s.fault = some r) {calls : List HostCall}
    (hcalls : ∀ c ∈ calls, c ≠ .reset) : ∃ b o, hostCalls s calls = { s with buffer := b, outcome := o } := by
  refine hostCalls_keeps (P := fun u => ∃ b o, u = { s with buffer := b, outcome := o }) ⟨_, _, rfl⟩
    (fun hmem => absurd rfl (hcalls _ hmem)) ?_ ?_
  · rintro u bs ⟨b, o, rfl⟩ -
    exact ⟨_, _, rfl⟩
  · rintro u t ⟨b, o, rfl⟩ hstep
    cases hstep.symm.trans (step_of_fault hr)
    exact ⟨_, _, rfl⟩

/-- Settles O21: a step reports the record, `hostCalls_of_fault`, and the reset state records no fault. -/
theorem recordedFaultPersistsUntilReset : Obligations.RecordedFaultPersistsUntilReset := by
  intro s r hr
  refine ⟨step_of_fault hr, fun calls hcalls => ?_, rfl⟩
  obtain ⟨b, o, heq⟩ := hostCalls_of_fault hr hcalls
  rw [heq]
  exact ⟨hr, rfl, rfl, rfl, rfl, rfl⟩

/-! ### Steps that raise a fault (R211) -/

/-- A step that fetches either is fault entry, at an opcode byte that stands at pc, or neither records nor reports a
fault. -/
theorem step_faultEntry_or_no_fault {s t : State} (hfault : s.fault = none) (h : step s = .next t) :
    (∃ f ob, s.buffer.read s.pc.toNat = some ob ∧ t = s.faultEntry f ob) ∨
    (t.fault = none ∧ ∀ f, t.outcome ≠ .faulted f) := by
  rcases step_cases h with ⟨r, hr, -⟩ | ⟨-, -, rfl⟩ | ⟨-, hfetch, f, rfl⟩ | ⟨-, i, -, -, hcompleted⟩
  · simp [hfault] at hr
  · exact .inr ⟨hfault, nofun⟩
  · have hob := State.read_opcodeByte (Nat.lt_of_not_le (mt State.fetch_noOpcode.2 hfetch))
    exact .inl ⟨f, _, hob, State.raise_eq_faultEntry f hob⟩
  · exact .inr ⟨hcompleted.fault.trans hfault, hcompleted.outcome⟩

/-- Settles O22, by the two cases of `step_faultEntry_or_no_fault`. -/
theorem faultsArePrecise : Obligations.FaultsArePrecise := by
  intro s t hfault h
  rcases step_faultEntry_or_no_fault hfault h with ⟨f, ob, hob, rfl⟩ | ⟨hnone, hno⟩
  · refine ⟨fun g hg => ?_, fun _ => ⟨f, rfl⟩⟩
    obtain rfl : f = g := StepOutcome.faulted.inj hg
    exact ⟨ob, hob, rfl⟩
  · exact ⟨fun g hg => absurd hg (hno g), fun hsome => absurd hnone hsome⟩

/-! ### Steps that halt (R220, R221) -/

/-- A fetched instruction's opcode byte stands at pc. -/
theorem State.fetch_opcode {s : State} {i : Instr} (h : s.fetch = .ok i) :
    ∃ ob, s.buffer.read s.pc.toNat = some ob ∧ fromByte s.cfg ob = i.op := by
  obtain ⟨rest, hdecode⟩ := State.fetch_ok h
  obtain ⟨ob, hop, hwindow⟩ := decode_ok hdecode
  have hfirst := s.buffer.window_getElem? s.pc.toNat 4 0 (by decide)
  rw [hwindow] at hfirst
  exact ⟨ob, hfirst.symm, hop⟩

/-- Everything a step that halts can be: one row of R220's table each. -/
theorem step_halted {s t : State} {reason : HaltReason} (h : step s = .next t) (ht : t.outcome = .halted reason) :
    s.fault = none ∧
    ((reason = .endOfBuffer ∧ s.buffer.size ≤ s.pc.toNat ∧ t = s.withOutcome (.halted reason)) ∨
     (reason = .haltInstr ∧ s.fetch = .ok .halt ∧ t = (s.advance 1).withOutcome (.halted reason)) ∨
     (reason = .illegalInstr ∧ s.fetch = .ok .illegal ∧ t = (s.advance 1).withOutcome (.halted reason))) := by
  rcases step_cases h with ⟨r, -, rfl⟩ | ⟨hfault, hend, rfl⟩ | ⟨-, -, f, rfl⟩ |
    ⟨hfault, i, hfetch, hexec, hcompleted⟩
  · cases ht
  · cases ht
    exact ⟨hfault, .inl ⟨rfl, State.fetch_noOpcode.1 hend, rfl⟩⟩
  · cases ht
  · refine ⟨hfault, .inr ?_⟩
    rcases exec_completed_outcome hexec hcompleted.outcome with ⟨rfl, -⟩ | ⟨rfl, -⟩ | ⟨-, -, ho⟩
    · cases hexec; cases ht
      exact .inl ⟨rfl, hfetch, rfl⟩
    · cases hexec; cases ht
      exact .inr ⟨rfl, hfetch, rfl⟩
    · simp [ho] at ht

/-- A step that halts records no fault. -/
theorem step_halted_fault {s t : State} {reason : HaltReason} (h : step s = .next t)
    (ht : t.outcome = .halted reason) : t.fault = none := by
  rcases step_halted h ht with ⟨hfault, ⟨-, -, rfl⟩ | ⟨-, -, rfl⟩ | ⟨-, -, rfl⟩⟩ <;> exact hfault

/-- Settles O24: the three rows of `step_halted`, and the last step of a run that halts is a step that halts. -/
theorem haltsAreNotFaults : Obligations.HaltsAreNotFaults := by
  refine ⟨fun s t reason h ht => ?_, fun fuel s t reason hrun => ⟨hrun, ?_⟩⟩
  · refine ⟨(step_halted h ht).1, step_halted_fault h ht, ?_⟩
    rcases (step_halted h ht).2 with ⟨rfl, hend, rfl⟩ | ⟨rfl, hfetch, rfl⟩ | ⟨rfl, hfetch, rfl⟩
    · exact ⟨fun _ => ⟨hend, rfl⟩, nofun, nofun⟩
    · exact ⟨nofun, fun _ => ⟨State.fetch_opcode hfetch, rfl⟩, nofun⟩
    · exact ⟨nofun, nofun, fun _ => ⟨State.fetch_opcode hfetch, rfl⟩⟩
  · obtain ⟨-, ht, k, -, -, hlast⟩ := continuesFor_of_run hrun
    exact step_halted_fault hlast ht

/-! ### The codes (R212, R220) -/

/-- Settles O55: each list of codes is the table's, by the equations of `Fault.code` and `HaltReason.code`. -/
theorem faultAndHaltCodes : Obligations.FaultAndHaltCodes :=
  ⟨rfl, rfl⟩

end Sys2Proof.Machine

/-! PROOF. Reset (70_reset_and_hazards.md R240, R241, R251): what reset leaves of each piece of state, runs under the
`Unwritten` policy beside runs of the `Zero`-policy twin, and a jump into an operand. -/

namespace Sys2Proof.Machine

/-! ### Runs of the twin under the `Zero` policy (R241) -/

/-- The decoder reads the opcode map and `NOP_BYTE` of the configuration, never its reset policy. -/
theorem decode_withResetPolicy (c : Config) (p : ResetPolicy) (bs : List Byte) :
    decode { c with resetPolicy := p } bs = decode c bs := by
  cases bs <;> rfl

theorem zeroTwin_fetch (s : State) : s.zeroTwin.fetch = s.fetch := by
  have hdecode := decode_withResetPolicy s.cfg .zero (s.buffer.window s.pc.toNat 4)
  simp only [State.fetch, State.zeroTwin, hdecode]

theorem zeroTwin_stepNoInstr (s : State) (e : DecodeError) : s.zeroTwin.stepNoInstr e = (s.stepNoInstr e).zeroTwin := by
  cases e with
  | noOpcode => exact zeroTwin_withOutcome s _
  | truncated => exact zeroTwin_raise s _

/-- A step that raises no `UnwrittenRead` runs on the twin as on the state: the twin has the same fault record and
fetches the same instruction, which runs alike by `exec_zeroTwin`. -/
theorem step_zeroTwin {s t : State} (hp : s.cfg.resetPolicy = .unwritten) (h : step s = .next t)
    (hread : t.outcome ≠ .faulted .unwrittenRead) : step s.zeroTwin = .next t.zeroTwin := by
  cases hfault : s.fault with
  | some r =>
    rw [step_of_fault hfault] at h
    cases h
    exact step_of_fault (s := s.zeroTwin) hfault
  | none =>
    cases hfetch : s.fetch with
    | error e =>
      rw [step_of_error hfault hfetch] at h
      cases h
      rw [step_of_error (s := s.zeroTwin) hfault ((zeroTwin_fetch s).trans hfetch), zeroTwin_stepNoInstr]
    | ok i =>
      rw [step_of_fetch hfault hfetch] at h
      rw [step_of_fetch (s := s.zeroTwin) hfault ((zeroTwin_fetch s).trans hfetch)]
      exact exec_zeroTwin hp i h hread

/-- The configuration stays through a sequence of steps. -/
theorem steps_cfg {n : Nat} {c : Nat → State} (hsteps : ∀ j, j < n → step (c j) = .next (c (j + 1))) {j : Nat}
    (hj : j ≤ n) : (c j).cfg = (c 0).cfg := by
  induction j with
  | zero => rfl
  | succ j ih => exact (step_cfg (hsteps j hj)).trans (ih (Nat.le_of_succ_le hj))

/-- A run that stops at no `UnwrittenRead` is matched by a run of the twin. No step before the last raises one, since
each continues. -/
theorem run_zeroTwin {fuel : Nat} {s t : State} {o : StepOutcome} (hp : s.cfg.resetPolicy = .unwritten)
    (h : run fuel s = some (t, o)) (hread : o ≠ .faulted .unwrittenRead) :
    run fuel s.zeroTwin = some (t.zeroTwin, o) := by
  induction fuel generalizing s with
  | zero => cases h
  | succ fuel ih =>
    obtain ⟨u, hu⟩ := step_next s
    by_cases hgo : u.outcome = .continues
    · rw [run_succ_of_continues fuel hu hgo] at h
      have htwin := step_zeroTwin hp hu (by simp [hgo])
      rw [run_succ_of_continues fuel htwin hgo]
      exact ih (step_cfg hu ▸ hp) h
    · rw [run_succ_of_stop fuel hu hgo] at h
      cases h
      exact run_succ_of_stop fuel (step_zeroTwin hp hu hread) hgo

/-- Settles O54: `step_zeroTwin` at each step of a sequence, whose configuration stays, and `run_zeroTwin`. -/
theorem zeroPolicyRunsFollowUnwrittenRuns : Obligations.ZeroPolicyRunsFollowUnwrittenRuns := by
  refine ⟨fun s t => step_zeroTwin, fun n c hp hsteps j hj => ?_, fun fuel s t o => run_zeroTwin⟩
  have hcfg : (c j).cfg = (c 0).cfg := steps_cfg (fun k hk => (hsteps k hk).1) (Nat.le_of_lt hj)
  obtain ⟨hstep, hread⟩ := hsteps j hj
  exact step_zeroTwin (hcfg ▸ hp) hstep hread

/-! ### The state after reset (R240) -/

theorem resetCell_shown_unwritten {α : Type} {p : ResetPolicy} (hp : p = .unwritten) (zero : α) :
    (resetCell p zero).shown p = none := by
  subst hp
  rfl

theorem resetCell_shown_zero {α : Type} {p : ResetPolicy} (hp : p = .zero) (zero : α) :
    (resetCell p zero).shown p = some zero := by
  subst hp
  rfl

/-- Settles O1: every cell is `resetCell`, which shows as each policy says, and the next step finds the empty buffer's
end. -/
theorem resetSetsEveryPieceOfState : Obligations.ResetSetsEveryPieceOfState := by
  rintro s _ rfl
  refine ⟨rfl, rfl, rfl, rfl, fun hp => ⟨fun i => ?_, ?_, ?_⟩, fun hp => ⟨fun i => ?_, ?_, ?_⟩, ?_⟩
  · rw [hostReset, State.resetWith_reg]
    exact resetCell_shown_unwritten hp _
  · exact resetCell_shown_unwritten hp _
  · exact resetCell_shown_unwritten hp _
  · rw [hostReset, State.resetWith_reg]
    exact resetCell_shown_zero hp _
  · exact resetCell_shown_zero hp _
  · exact resetCell_shown_zero hp _
  · exact step_endOfBuffer rfl (Nat.zero_le _)

/-- Settles O2: `State.resetWith_inv`, at every configuration and at the one of `State.reset`. -/
theorem invariantHoldsAtReset : Obligations.InvariantHoldsAtReset := by
  have hboot : Config.boot.wf = true := by decide
  exact ⟨fun c => State.resetWith_inv, State.resetWith_inv hboot⟩

/-! ### A jump into an operand (R251) -/

/-- An opcode byte whose instruction has no operand bytes is fetched alone, whatever stands after it. -/
theorem State.fetch_of_no_operands {s : State} {ob : Byte} {i : Instr} (hob : s.buffer.read s.pc.toNat = some ob)
    (hop : fromByte s.cfg ob = i.op) (hoperands : operandBytes i = []) : s.fetch = .ok i := by
  refine State.fetch_of_decode (rest := s.buffer.window (s.pc.toNat + 1) 3) ?_
  have hdecode := decode_of_operandBytes hop (s.buffer.window (s.pc.toNat + 1) 3)
  rwa [hoperands, List.nil_append, ← Memory.window_cons 3 hob] at hdecode

/-- In the reference opcode map the byte 0x05 is HALT (30_encoding.md R61). -/
theorem fromByte_five {c : Config} (h : c.opcodeMap = defaultOpcodeMap) : fromByte c 0x05 = .halt := by
  rw [fromByte_map (by decide)]
  simp only [h]
  rfl

/-- Settles O56: the byte at offset 1 is all that the fetch needs, and halt advances pc from 1 to 2. -/
theorem jumpIntoAnOperandExecutesIt : Obligations.JumpIntoAnOperandExecutesIt := by
  intro s hfault hmap hpc hbytes
  have hbyte : s.buffer.read 1 = some 0x05 := by
    obtain ⟨-, htail⟩ := List.cons.inj hbytes
    exact (List.cons.inj htail).1
  have hob : s.buffer.read s.pc.toNat = some 0x05 := by rw [hpc]; exact hbyte
  have hfetch : s.fetch = .ok .halt := State.fetch_of_no_operands hob (fromByte_five hmap) rfl
  have hadvance : s.advance 1 = { s with pc := 2 } := by rw [State.advance, hpc]; rfl
  calc step s = exec .halt s := step_of_fetch hfault hfetch
    _ = .next ((s.advance 1).withOutcome (.halted .haltInstr)) := rfl
    _ = .next { s with pc := 2, outcome := .halted .haltInstr } := by rw [hadvance]; rfl

end Sys2Proof.Machine
